-- ==== Sys2Proof/Word.lean ====
section
/-! DEFINITION. The words of the machine: every datum it moves is one byte (20_memory.md R33, R38). -/

namespace Sys2Proof

/-- A byte: an unsigned 8-bit value (00_scope.md section 6). -/
abbrev Byte := BitVec 8

end Sys2Proof
end

