-- ==== Sys2Proof/Config.lean ====
section
/-! DEFINITION. The widths that an implementation fixes (00_scope.md R8), at the values the spec takes.
The constants of R5 that the source fixes stand in Machine/Operands.lean. -/

namespace Sys2Proof

/-- `GEOM_BITS`: the width of the `WIDTH` and `HEIGHT` latches; at least 7, the spec takes 16 (R8, D15; log 1). -/
abbrev Config.geomBits : Nat := 16

/-- The width of `MBI`: `2*GEOM_BITS` bits (10_state.md R10, R14; log 1). -/
abbrev Config.mbiBits : Nat := 2 * Config.geomBits

/-- The width of the operand of `RD`: `2*GEOM_BITS + 2` bits hold every possible `CAP - 1` (30_encoding.md R55; log 1). -/
abbrev Config.offsetBits : Nat := 2 * Config.geomBits + 2

/-- `ACC_BITS`: the width of the converter's accumulator; at least 27, the spec takes 32 (R8, D15; log 2). -/
abbrev Config.accBits : Nat := 32

/-- The contents of a geometry latch, and an operand of `START` (10_state.md R17). -/
abbrev GeomWord := BitVec Config.geomBits

/-- The contents of the macroblock index (10_state.md R14). -/
abbrev IndexWord := BitVec Config.mbiBits

end Sys2Proof
end

