-- ==== Sys2Proof/Syntax.lean ====
section
/-! DEFINITION. The operations of the machine (30_encoding.md R60), one constructor per row of
opcode_table.json, and the plain data they carry: macroblock (format M), pixel (format X), token (format T). -/

namespace Sys2Proof

/-- Format M: four lumas and the shared chroma pair, in stream order (30_encoding.md R51); the contents of the
register file `MB[0..5]`, whose aliases are the field names (10_state.md R11). -/
structure Macroblock where
  y0 : Byte
  y1 : Byte
  y2 : Byte
  y3 : Byte
  cb : Byte
  cr : Byte
  deriving DecidableEq, Repr

/-- Format X: one RGB pixel (30_encoding.md R52). -/
structure Pixel where
  r : Byte
  g : Byte
  b : Byte
  deriving DecidableEq, Repr

/-- One item of the stream port (30_encoding.md R53): what a byte source answers to a read. -/
inductive Token where
  | byte (b : Byte)
  | endTok
  | fail
  deriving DecidableEq, Repr

/-- The eight operations of the machine. -/
inductive Instr where
  /-- `RESET` (41_sequencer.md R97). -/
  | reset
  /-- `START w h` (R91). -/
  | start (w h : GeomWord)
  /-- `BYTE b` (R93). -/
  | byte (b : Byte)
  /-- `END` (R95); the data bits of the token are ignored (30_encoding.md R53). -/
  | endTok
  /-- `FAIL` (R96); the data bits of the token are ignored. -/
  | fail
  /-- `MB4` on the macroblock of its format-M word (R94); performed inside the `BYTE` step that fills `MB[5]`. -/
  | mb4 (y0 y1 y2 y3 cb cr : Byte)
  /-- `REC601 y, cb, cr` (40_converter.md R77); evaluated inside `MB4`. -/
  | rec601 (y cb cr : Byte)
  /-- `RD a`, `a` a raster byte offset (41_sequencer.md R98). -/
  | rd (a : Nat)
  deriving DecidableEq, Repr

/-- The operation a token is on the stream port. -/
def Token.toInstr : Token → Instr
  | .byte b => .byte b
  | .endTok => .endTok
  | .fail => .fail

/-- How an operation is selected (R60): the four inputs of the block, and the two places inside it where `MB4` and
`REC601` are selected. The two inner ones are no ports of the block: no host event comes that way (log 12). -/
inductive Port where
  /-- The reset input, format P. -/
  | resetInput
  /-- The stream port, format T. -/
  | stream
  /-- Inside the block: the converter, format F. -/
  | converter
  /-- The control port, format S. -/
  | control
  /-- The raster read port, format A. -/
  | raster
  /-- Inside the block: the four lanes, format M. -/
  | lanes
  deriving DecidableEq, Repr

/-- What arrives for one step: where it arrives and the word it carries (log 11). -/
structure Frame where
  port : Port
  word : BitVec 48
  deriving DecidableEq, Repr

/-- The ports a host reaches; the rows with "host_visible" true of opcode_table.json. -/
def Port.hostVisible : Port → Bool
  | .resetInput => true
  | .stream => true
  | .converter => false
  | .control => true
  | .raster => true
  | .lanes => false

end Sys2Proof
end

