-- ==== Sys2Proof/WellFormed.lean ====
section
/-! DEFINITION. Which terms of `Instr` have an encoding. Every operand but the offset of `RD` has exactly the width
of its field, and every value of it is legal (30_encoding.md R61; `START` does not check the geometry, 41_sequencer.md
R91); the offset of `RD` is a natural number that must fit format A (30_encoding.md R55). -/

namespace Sys2Proof

/-- The operation can be written as a word of its format. -/
def Instr.wellFormed : Instr → Bool
  | .reset => true
  | .start _ _ => true
  | .byte _ => true
  | .endTok => true
  | .fail => true
  | .mb4 _ _ _ _ _ _ => true
  | .rec601 _ _ _ => true
  | .rd a => decide (a < 2 ^ Config.offsetBits)

/-- `wellFormed` as a proposition. -/
abbrev WellFormed (i : Instr) : Prop := i.wellFormed = true

end Sys2Proof
end

