-- ==== Sys2Proof/Decode.lean ====
section
/-! DEFINITION. From frames, or bytes, to operations and back (30_encoding.md sections 1 to 4). Which operation
happens is selected by the port and, on the stream port, by the token kind (R60). -/

namespace Sys2Proof

/-- Why a frame is no event of the machine. -/
inductive Reject where
  /-- Token kind `0b11` (30_encoding.md R62; log 14). -/
  | reservedTokenKind
  /-- The frame names one of the two places inside the block; no event comes that way (00_scope.md R160, 10_state.md
  R24, 41_sequencer.md R94; log 12). -/
  | internalPort
  /-- The reset input is low: `RESET` is the input asserted (30_encoding.md R60). -/
  | resetNotAsserted
  /-- A bit above the width of the port's format is set (log 11). -/
  | strayBits
  /-- A byte string whose length is that of no format (log 11). -/
  | badLength
  deriving DecidableEq, Repr

/-- The width of the format a port carries, in bits (opcode_table.json, "width"). -/
def Port.bits : Port → Nat
  | .resetInput => 1
  | .stream => 10
  | .converter => 24
  | .control => 2 * Config.geomBits
  | .raster => Config.offsetBits
  | .lanes => 48

/-- The port whose format takes this many whole bytes; the six formats have six different lengths (log 11). -/
def Port.ofBytes : Nat → Option Port
  | 1 => some .resetInput
  | 2 => some .stream
  | 3 => some .converter
  | 4 => some .control
  | 5 => some .raster
  | 6 => some .lanes
  | _ => none

/-- The frame has no bit above its format's width. -/
def Frame.fits (f : Frame) : Bool := decide (f.word.toNat < 2 ^ f.port.bits)

/-- Format T: the kind in `t[9:8]`, the data byte in `t[7:0]` (30_encoding.md R53). -/
def decodeToken (t : BitVec 48) : Except Reject Instr :=
  let kind : BitVec 2 := t.extractLsb' 8 2
  if kind = 0 then .ok (.byte (t.extractLsb' 0 8))
  else if kind = 1 then .ok .endTok
  else if kind = 2 then .ok .fail
  else .error .reservedTokenKind

/-- The operation a word selects on a port, the word being no wider than the port's format. -/
def decodeWord (p : Port) (x : BitVec 48) : Except Reject Instr :=
  match p with
  | .resetInput => if x = 1 then .ok .reset else .error .resetNotAsserted
  | .stream => decodeToken x
  | .converter => .ok (.rec601 (x.extractLsb' 16 8) (x.extractLsb' 8 8) (x.extractLsb' 0 8))
  | .control => .ok (.start (x.extractLsb' 16 16) (x.extractLsb' 0 16))
  | .raster => .ok (.rd x.toNat)
  | .lanes => .ok (.mb4 (x.extractLsb' 40 8) (x.extractLsb' 32 8) (x.extractLsb' 24 8) (x.extractLsb' 16 8) (x.extractLsb' 8 8) (x.extractLsb' 0 8))

/-- The operation a frame is, or why it is none. -/
def decode (f : Frame) : Except Reject Instr :=
  if f.fits then decodeWord f.port f.word else .error .strayBits

/-- The operation an event is: a host reaches the four input ports and no other (00_scope.md R160, 10_state.md R24). -/
def decodeEvent (f : Frame) : Except Reject Instr :=
  if f.port.hostVisible then decode f else .error .internalPort

/-- The frame of an operation: format P R60, S R54, T R53, M R51, F R56, A R55. `END` and `FAIL` are sent with data 0. -/
def encode : Instr → Frame
  | .reset => ⟨.resetInput, 1⟩
  | .start w h => ⟨.control, (w ++ h).setWidth 48⟩
  | .byte b => ⟨.stream, b.setWidth 48⟩
  | .endTok => ⟨.stream, 0x100⟩
  | .fail => ⟨.stream, 0x200⟩
  | .mb4 y0 y1 y2 y3 cb cr => ⟨.lanes, (y0 ++ y1 ++ y2 ++ y3 ++ cb ++ cr).setWidth 48⟩
  | .rec601 y cb cr => ⟨.converter, (y ++ cb ++ cr).setWidth 48⟩
  | .rd a => ⟨.raster, BitVec.ofNat 48 a⟩

/-- Format X: a pixel as one number, the first raster byte highest (30_encoding.md R52). -/
def Pixel.toWord (x : Pixel) : BitVec 24 := x.r ++ x.g ++ x.b

/-- The frame of a token. -/
def Token.frame (t : Token) : Frame := encode t.toInstr

/-- The number that bytes spell, the first byte least significant. -/
def wordOfBytes : List Byte → Nat
  | [] => 0
  | b :: bs => b.toNat + 256 * wordOfBytes bs

/-- The `n` bytes of a number, the least significant first. -/
def bytesOfWord : Nat → Nat → List Byte
  | 0, _ => []
  | n + 1, x => BitVec.ofNat 8 x :: bytesOfWord n (x / 256)

/-- The frame a byte string stands for: its length says the port (log 11). -/
def Frame.ofBytes (bs : List Byte) : Except Reject Frame :=
  match Port.ofBytes bs.length with
  | some p => .ok ⟨p, BitVec.ofNat 48 (wordOfBytes bs)⟩
  | none => .error .badLength

/-- The byte string of a frame: its format's width in whole bytes. -/
def Frame.toBytes (f : Frame) : List Byte := bytesOfWord ((f.port.bits + 7) / 8) f.word.toNat

/-- The operation a byte string is, or why it is none; total on all byte strings. -/
def decodeBytes (bs : List Byte) : Except Reject Instr :=
  match Frame.ofBytes bs with
  | .ok f => decode f
  | .error r => .error r

/-- The bytes of a row's word of opcode_table.json, `nbits` rounded up to whole bytes. -/
def tableBytes (nbits w : Nat) : List Byte := bytesOfWord ((nbits + 7) / 8) w

/-- What the decoder reads from an operation whose bits are `w`, numbered as opcode_table.json numbers them. -/
def decodeTableWord (nbits w : Nat) : Option Instr :=
  match decodeBytes (tableBytes nbits w) with
  | .ok i => some i
  | .error _ => none

end Sys2Proof
end

