-- ==== Sys2Proof/Machine/State.lean ====
section
/-! DEFINITION. The state of the machine, all of 10_state.md R10, as plain data; beside it the environment (what the
host will present, what it has back), which is the model's own (log 6, log 8, log 9); the reasons a step can stop; and
the state after reset (R23). -/

namespace Sys2Proof.Machine

/-- `ST`, the control state (10_state.md R18); its codes are in Machine/Flags.lean. -/
inductive Ctrl where
  | idle
  | run
  | done
  | err
  deriving DecidableEq, Repr

/-- `ERR`, the error kind (10_state.md R19); the reserved code `0b11` is never produced and has no constructor. -/
inductive ErrKind where
  | noError
  | truncatedInput
  | unreadableSource
  deriving DecidableEq, Repr

/-- `RASTER` as the list of the bytes it holds, offsets strictly rising. An offset that is not listed holds no value
(10_state.md R20, R23; log 5). -/
abbrev Memory := List Host.Cell

/-- What an operation hands back. -/
inductive Handed where
  /-- Nothing has been handed back yet. -/
  | nothing
  /-- `RD` returned this byte (41_sequencer.md R98). -/
  | byte (b : Byte)
  /-- `REC601` returned this pixel (40_converter.md R77). -/
  | pixel (x : Pixel)
  /-- `RD` was refused and returned no value (R98). -/
  | refused
  deriving DecidableEq, Repr

/-- The environment of the block. No part of it is state of the machine (10_state.md R21). -/
structure Env where
  /-- The events the host will present, in order. -/
  offers : List Frame
  /-- The tokens that were offered and not taken, in order: they stay with the host's source (41_sequencer.md R92). -/
  untaken : List Token
  /-- What the last operation that returns anything handed back. -/
  handed : Handed
  deriving DecidableEq, Repr

/-- The state of the machine (R10) and its environment. -/
structure State where
  /-- `MB[0..5]`. -/
  mb : Macroblock
  /-- `PHASE`, 0 to 5 (R13). -/
  phase : Fin 6
  /-- `MBI` (R14). -/
  mbi : IndexWord
  /-- `WIDTH` (R17). -/
  width : GeomWord
  /-- `HEIGHT` (R17). -/
  height : GeomWord
  /-- `ST` (R18). -/
  st : Ctrl
  /-- `ERR` (R19). -/
  err : ErrKind
  /-- `RASTER` (R20). -/
  raster : Memory
  /-- The environment (the model's own). -/
  env : Env
  deriving DecidableEq, Repr

/-- Why the machine stops. Neither is an error of the spec, both of which are ordinary states (60_exceptions.md R128);
no sequence of host events leads to one of these. -/
inductive Fault where
  /-- Raised by `MB4` (and by the `BYTE` that performs it) where the twelve bytes would not lie in `0 .. CAP-1`, which is
  all the raster there is (20_memory.md R30). Safe: the model stops. Log 13. -/
  | rasterOutOfRange
  /-- Raised by `RD` in `DONE` for an offset below `CAP` that holds no value. Safe: the model stops. Log 5. -/
  | rasterByteUnwritten
  deriving DecidableEq, Repr

/-- Why a step is refused. -/
inductive Refusal where
  /-- Raised by `exec` for an operation that has no meaning yet. Safe. -/
  | notModelled (mnemonic : String)
  /-- Raised by `step` for a frame that is no event: the reserved token kind (30_encoding.md R62), a frame for a place
  inside the block (00_scope.md R160; log 12), or a malformed frame (log 11). Safe: the model refuses. -/
  | undecodable (why : Reject)
  /-- Raised by `RD` where it is not enabled: outside `DONE`, or `a >= CAP` (41_sequencer.md R98: "A model gives such an
  `RD` no step (it refuses it)"). Safe. `step` goes on to the next event (log 10). -/
  | readNotEnabled
  /-- Raised by `MB4` selected outside `RUN`: it is performed inside the `BYTE` step that fills `MB[5]`, "and only
  there" (41_sequencer.md R94). Safe: no host event selects it. Log 12. -/
  | mb4OutsideRun
  deriving DecidableEq, Repr

/-- The state right after reset (10_state.md R23, 70_reset_and_hazards.md R140), with nothing on offer (log 6). The spec
gives `MB` no value; the zeros are the model's (log 4). -/
def State.reset : State where
  mb := ⟨0, 0, 0, 0, 0, 0⟩
  phase := 0
  mbi := 0
  width := 0
  height := 0
  st := .idle
  err := .noError
  raster := []
  env := ⟨[], [], .nothing⟩

end Sys2Proof.Machine
end

