-- ==== Sys2Proof/Machine/Ops.lean ====
section
/-! DEFINITION. The named operations over registers, raster and environment; taking an error (`raise`) and the one way
out of it (`RESET`); what the geometry and the position give (00_scope.md R6, 10_state.md R15). -/

namespace Sys2Proof

/-! ## The macroblock registers (10_state.md R11) -/

/-- `MB[i]`. -/
def Macroblock.get (m : Macroblock) (i : Fin 6) : Byte :=
  match i with
  | 0 => m.y0
  | 1 => m.y1
  | 2 => m.y2
  | 3 => m.y3
  | 4 => m.cb
  | 5 => m.cr

/-- `MB[i] <- v`. -/
def Macroblock.set (m : Macroblock) (i : Fin 6) (v : Byte) : Macroblock :=
  match i with
  | 0 => { m with y0 := v }
  | 1 => { m with y1 := v }
  | 2 => { m with y2 := v }
  | 3 => { m with y3 := v }
  | 4 => { m with cb := v }
  | 5 => { m with cr := v }

/-- The luma of lane `i` (10_state.md R11). -/
def Macroblock.luma (m : Macroblock) (i : Fin 4) : Byte :=
  match i with
  | 0 => m.y0
  | 1 => m.y1
  | 2 => m.y2
  | 3 => m.y3

/-- Channel `c` of a pixel: 0 red, 1 green, 2 blue (20_memory.md R32, R35). -/
def Pixel.channel (x : Pixel) (c : Fin 3) : Byte :=
  match c with
  | 0 => x.r
  | 1 => x.g
  | 2 => x.b

end Sys2Proof

namespace Sys2Proof.Machine

/-! ## The raster -/

/-- `MemRead(a, 1)` without the bound: the byte at offset `a`, or no value. -/
def Memory.read : Memory → Nat → Option Byte
  | [], _ => none
  | (k, v) :: m, a => if a = k then some v else Memory.read m a

/-- `MemWrite(a, 1, v)` without the bound: offset `a` holds `v` from now on; the list stays in rising order. -/
def Memory.write : Memory → Nat → Byte → Memory
  | [], a, v => [(a, v)]
  | (k, u) :: m, a, v =>
    if a < k then (a, v) :: (k, u) :: m
    else if a = k then (a, v) :: m
    else (k, u) :: Memory.write m a v

/-- The canonical form: offsets strictly rising. (An unlisted offset holds no value, so no listed one can equal it.) -/
def Memory.wf : Memory → Bool
  | [] => true
  | [_] => true
  | c :: d :: m => decide (c.1 < d.1) && Memory.wf (d :: m)

/-! ## What geometry and position give -/

/-- `NPIX = WIDTH * HEIGHT` (00_scope.md R6). -/
def npixOf (w h : GeomWord) : Nat := w.toNat * h.toNat

/-- `NPIX` of the latched geometry. -/
def State.npix (s : State) : Nat := npixOf s.width s.height

/-- `CAP = 3 * NPIX`, the raster's size in bytes (R6). -/
def State.cap (s : State) : Nat := 3 * s.npix

/-- `NMB = NPIX / 4`, the macroblocks of a valid stream (R6). -/
def State.nmb (s : State) : Nat := s.npix / 4

/-- `INLEN = 6 * NMB`, the bytes of a valid stream (R6). -/
def State.inlen (s : State) : Nat := 6 * s.nmb

/-- The stream bytes consumed so far in this run, `6*MBI + PHASE` (10_state.md R15). -/
def State.consumed (s : State) : Nat := 6 * s.mbi.toNat + s.phase.val

/-- The raster write pointer of macroblock `k`, `12*k` (10_state.md R15; 20_memory.md R35). -/
def writePointer (k : Nat) : Nat := 12 * k

/-- The raster offset of channel `c` of lane `i` of macroblock `k` (41_sequencer.md R94, R108). -/
def laneOffset (k : Nat) (i : Fin 4) (c : Fin 3) : Nat := writePointer k + 3 * i.val + c.val

/-- The raster holds another macroblock: `4*(MBI+1) <= NPIX`, the negation of the guard of `BYTE` (41_sequencer.md R93). -/
def State.hasRoom (s : State) : Bool := decide (4 * (s.mbi.toNat + 1) ≤ s.npix)

/-- The pixel at column `x` and row `r` (20_memory.md R34). -/
def pixelIndex (width x r : Nat) : Nat := r * width + x

/-- The column of pixel `p` (R34). -/
def pixelColumn (width p : Nat) : Nat := p % width

/-- The row of pixel `p` (R34). -/
def pixelRow (width p : Nat) : Nat := p / width

/-! ## Register and environment updates -/

/-- `MB[i] <- v`. -/
def State.writeMb (s : State) (i : Fin 6) (v : Byte) : State := { s with mb := s.mb.set i v }

/-- `pos <- (k, p)` (00_scope.md section 6). -/
def State.setPos (s : State) (k : IndexWord) (p : Fin 6) : State := { s with mbi := k, phase := p }

/-- `ST <- c`. -/
def State.setSt (s : State) (c : Ctrl) : State := { s with st := c }

/-- The raster replaced. -/
def State.setRaster (s : State) (m : Memory) : State := { s with raster := m }

/-- What the host will present, replaced. -/
def State.setOffers (s : State) (fs : List Frame) : State := { s with env := { s.env with offers := fs } }

/-- A token offered while none is taken: nothing of the machine changes, and the token stays with the host's source
(41_sequencer.md R92; log 8). -/
def State.leaveToken (s : State) (t : Token) : State := { s with env := { s.env with untaken := s.env.untaken ++ [t] } }

/-- An operation hands a value back to whoever asked; nothing of the machine changes (log 9). -/
def State.handBack (s : State) (v : Handed) : State := { s with env := { s.env with handed := v } }

/-- The state changes of a `START` in `IDLE` (41_sequencer.md R91). -/
def State.beginRun (s : State) (w h : GeomWord) : State :=
  { s with width := w, height := h, mbi := 0, phase := 0, err := .noError, st := .run }

/-! ## Errors -/

/-- `raise E` (60_exceptions.md R128): `ERR` and `ST` are written and nothing else; nothing is saved and control goes nowhere. -/
def State.raise (s : State) (e : ErrKind) : State := { s with err := e, st := .err }

/-- The reset values, forced (41_sequencer.md R97, 10_state.md R23): the only way out of an error (60_exceptions.md R130).
The environment is the host's and is not the block's to reset. -/
def State.forceReset (s : State) : State := { State.reset with env := s.env }

/-! ## Outcomes -/

/-- Go on with the next state, if there is one. -/
def onNext (o : Host.Outcome State Fault Refusal) (k : State → Host.Outcome State Fault Refusal) :
    Host.Outcome State Fault Refusal :=
  match o with
  | .next s => k s
  | .fault r => .fault r
  | .refused r => .refused r

/-! ## The fetch of one event -/

/-- The next event the host presents and the state without it; none when nothing is on offer. -/
def State.fetch (s : State) : Option (Frame × State) :=
  match s.env.offers with
  | [] => none
  | f :: fs => some (f, s.setOffers fs)

/-- A refused read hands back no byte and the machine goes on with the next event, its state unchanged (41_sequencer.md
R98, R106: "refused" means the operation returns nothing; 95_test_vectors.md P10; log 10). Every other outcome stands. -/
def settleRead (s : State) (o : Host.Outcome State Fault Refusal) : Host.Outcome State Fault Refusal :=
  match o with
  | .refused .readNotEnabled => .next (s.handBack .refused)
  | o => o

/-- An event is placed in front of what the host will present. -/
def State.present (s : State) (f : Frame) : State := s.setOffers (f :: s.env.offers)

/-- A state of a run that has room for a macroblock: the state itself where it is one, else what `RESET` and `START 4 1`
leave (log 12). -/
def State.inRunWithRoom (s : State) : State :=
  if s.st = .run ∧ s.hasRoom = true then s else s.forceReset.beginRun 4 1

/-- The one place where `MB4` is selected on `q` (41_sequencer.md R94): a run with room, the first five bytes of `q`
assembled, and its sixth byte next on offer (log 12). -/
def State.beforeLastByte (s : State) (q : Macroblock) : State :=
  let r := s.inRunWithRoom
  ({ r with mb := { q with cr := r.mb.cr }, phase := 5 }).present (encode (.byte q.cr))

/-- The operation of a frame is what the next step does. A frame of a host port is placed on offer as it is. `MB4` and
`REC601` have no step of their own (00_scope.md R160): the next step is the `BYTE` inside which the block performs them,
`REC601` on all four lanes (log 12). -/
def State.place (s : State) (f : Frame) : State :=
  match decode f with
  | .error _ => s.present f
  | .ok i =>
    match i with
    | .reset => s.present f
    | .start _ _ => s.present f
    | .byte _ => s.present f
    | .endTok => s.present f
    | .fail => s.present f
    | .mb4 y0 y1 y2 y3 cb cr => s.beforeLastByte ⟨y0, y1, y2, y3, cb, cr⟩
    | .rec601 y cb cr => s.beforeLastByte ⟨y, y, y, y, cb, cr⟩
    | .rd _ => s.present f

end Sys2Proof.Machine
end

