-- ==== Sys2Proof/Machine/Control.lean ====
section
/-! DEFINITION. The host's operations outside the stream: `RESET` and `RD` (41_sequencer.md R97, R98). -/

namespace Sys2Proof.Machine

/-- `RESET` (R97): in every state, every piece of state to its reset value. -/
def execReset (s : State) : Host.Outcome State Fault Refusal := .next s.forceReset

/-- `RD` is enabled: `ST = DONE` and `a < CAP` (R98). -/
def State.readEnabled (s : State) (a : Nat) : Bool := decide (s.st = .done ∧ a < s.cap)

/-- `RD a` (R98): the byte is handed back and no state of the machine changes; where it is not enabled it has no step. -/
def execRd (a : Nat) (s : State) : Host.Outcome State Fault Refusal :=
  if s.readEnabled a then
    match s.raster.read a with
    | some v => .next (s.handBack (.byte v))
    | none => .fault .rasterByteUnwritten
  else .refused .readNotEnabled

end Sys2Proof.Machine
end

