-- ==== Sys2Proof/Machine/Operands.lean ====
section
/-! DEFINITION. The converter's operands and constants (00_scope.md R5; 30_encoding.md R57, R58, R59). -/

namespace Sys2Proof.Machine

/-- `SCALE` (R5). -/
def scale : Int := 100000

/-- `BIAS` (R5). -/
def bias : Int := 128

/-- `K_RCR = 1.40200 * SCALE` (R5, R59). -/
def kRcr : Int := 140200

/-- `K_GCB = 0.34414 * SCALE`. -/
def kGcb : Int := 34414

/-- `K_GCR = 0.71414 * SCALE`. -/
def kGcr : Int := 71414

/-- `K_BCB = 1.77200 * SCALE`. -/
def kBcb : Int := 177200

/-- A luma byte as the unsigned integer it spells (30_encoding.md R57). -/
def luma (y : Byte) : Int := y.toNat

/-- `DEBIAS(c)`: the signed chroma, -128 to 127 (30_encoding.md R58, 40_converter.md R71). -/
def debias (c : Byte) : Int := (c.toNat : Int) - bias

end Sys2Proof.Machine
end

