-- ==== Sys2Proof/Machine/Converter.lean ====
section
/-! DEFINITION. The colour converter (40_converter.md section 2) in exact integer arithmetic (00_scope.md R8, R9; log 2),
and the meaning of `REC601`. -/

namespace Sys2Proof.Machine

/-- `NR(y, cr)`, the scaled red numerator (R72). -/
def numRed (y cr : Byte) : Int := scale * luma y + kRcr * debias cr

/-- `NG(y, cb, cr)`, the scaled green numerator (R73). -/
def numGreen (y cb cr : Byte) : Int := scale * luma y - kGcb * debias cb - kGcr * debias cr

/-- `NB(y, cb)`, the scaled blue numerator (R74). -/
def numBlue (y cb : Byte) : Int := scale * luma y + kBcb * debias cb

/-- `DIVSCALE(N)`: floor division by the scale (R75); on `Int` and a positive divisor `/` is the floor division. -/
def divScale (n : Int) : Int := n / scale

/-- `CLAMP255(q)`: the clamp of the full-width quotient, and only then the byte (R76, R83). -/
def clamp255 (q : Int) : Byte := if q < 0 then 0 else if 255 < q then 255 else BitVec.ofInt 8 q

/-- `REC601(y, cb, cr)` (R77). -/
def rec601 (y cb cr : Byte) : Pixel where
  r := clamp255 (divScale (numRed y cr))
  g := clamp255 (divScale (numGreen y cb cr))
  b := clamp255 (divScale (numBlue y cb))

/-- `REC601 y, cb, cr` as an operation: it reads and writes no state and hands back the pixel (R70, R77; log 9). `step`
never selects it: the converter has no step of its own (00_scope.md R160; log 12). -/
def execRec601 (y cb cr : Byte) (s : State) : Host.Outcome State Fault Refusal :=
  .next (s.handBack (.pixel (rec601 y cb cr)))

end Sys2Proof.Machine
end

