-- ==== Sys2Proof/Machine/Sequencer.lean ====
section
/-! DEFINITION. The sequencer's operations on a run: `START`, `BYTE`, `MB4`, `END`, `FAIL` (41_sequencer.md section 2). -/

namespace Sys2Proof.Machine

/-- The pixel of lane `i`: its own luma and the chroma pair all four lanes share (R94, R107). -/
def lanePixel (q : Macroblock) (i : Fin 4) : Pixel := rec601 (q.luma i) q.cb q.cr

/-- One lane of `MB4`: the three writes of the pixel of lane `i` of macroblock `k` (R94). -/
def writeLane (k : Nat) (i : Fin 4) (x : Pixel) (m : Memory) : Memory :=
  ((m.write (laneOffset k i 0) (x.channel 0)).write (laneOffset k i 1) (x.channel 1)).write (laneOffset k i 2) (x.channel 2)

/-- The twelve writes of `MB4` for macroblock `k`, lane after lane (R94). -/
def writeMacroblock (k : Nat) (q : Macroblock) (m : Memory) : Memory :=
  writeLane k 3 (lanePixel q 3) (writeLane k 2 (lanePixel q 2) (writeLane k 1 (lanePixel q 1) (writeLane k 0 (lanePixel q 0) m)))

/-- `MB4` on the macroblock `q`, at the raster position of `MBI`: the twelve bytes are written in one step, or, where
they would not all lie in `0 .. CAP-1`, none is and the model faults (R94, D13; log 13). `MBI` is not advanced here. -/
def emitMacroblock (q : Macroblock) (s : State) : Host.Outcome State Fault Refusal :=
  if writePointer s.mbi.toNat + 11 < s.cap then
    .next (s.setRaster (writeMacroblock s.mbi.toNat q s.raster))
  else .fault .rasterOutOfRange

/-- `START w h` (R91): it has an effect in `IDLE` and is ignored elsewhere. -/
def execStart (w h : GeomWord) (s : State) : Host.Outcome State Fault Refusal :=
  if s.st = .idle then .next (s.beginRun w h) else .next s

/-- The `BYTE` pseudocode in `RUN` (R93). -/
def takeByte (b : Byte) (s : State) : Host.Outcome State Fault Refusal :=
  if s.phase = 0 ∧ s.hasRoom = false then .next (s.raise .truncatedInput)
  else if s.phase = 5 then
    onNext (emitMacroblock (s.mb.set 5 b) (s.writeMb 5 b)) fun t => .next (t.setPos (s.mbi + 1) 0)
  else .next ((s.writeMb s.phase b).setPos s.mbi (s.phase + 1))

/-- `BYTE b` (R93), taken only in `RUN` (R92). -/
def execByte (b : Byte) (s : State) : Host.Outcome State Fault Refusal :=
  if s.st = .run then takeByte b s else .next (s.leaveToken (.byte b))

/-- `MB4` (R94), on the macroblock of its format-M word. `step` never selects it: `BYTE` performs `emitMacroblock` itself
(log 12). -/
def execMb4 (y0 y1 y2 y3 cb cr : Byte) (s : State) : Host.Outcome State Fault Refusal :=
  if s.st = .run then emitMacroblock ⟨y0, y1, y2, y3, cb, cr⟩ s else .refused .mb4OutsideRun

/-- The `END` pseudocode in `RUN` (R95). -/
def takeEnd (s : State) : State :=
  if s.phase ≠ 0 then s.raise .truncatedInput
  else if 4 * s.mbi.toNat ≠ s.npix then s.raise .truncatedInput
  else s.setSt .done

/-- `END` (R95), taken only in `RUN` (R92). -/
def execEnd (s : State) : Host.Outcome State Fault Refusal :=
  if s.st = .run then .next (takeEnd s) else .next (s.leaveToken .endTok)

/-- `FAIL` (R96), taken only in `RUN` (R92). -/
def execFail (s : State) : Host.Outcome State Fault Refusal :=
  if s.st = .run then .next (s.raise .unreadableSource) else .next (s.leaveToken .fail)

end Sys2Proof.Machine
end

