-- ==== Sys2Proof/Machine/Dispatch.lean ====
section
/-! DEFINITION. One arm per operation of opcode_table.json (30_encoding.md R60). -/

namespace Sys2Proof.Machine

def exec (i : Instr) (s : State) : Host.Outcome State Fault Refusal :=
  match i with
  | .reset => Sys2Proof.Machine.execReset s
  | .start w h => Sys2Proof.Machine.execStart w h s
  | .byte b => Sys2Proof.Machine.execByte b s
  | .endTok => Sys2Proof.Machine.execEnd s
  | .fail => Sys2Proof.Machine.execFail s
  | .mb4 y0 y1 y2 y3 cb cr => Sys2Proof.Machine.execMb4 y0 y1 y2 y3 cb cr s
  | .rec601 y cb cr => Sys2Proof.Machine.execRec601 y cb cr s
  | .rd a => Sys2Proof.Machine.execRd a s

end Sys2Proof.Machine
end

