-- ==== Sys2Proof/Machine/Step.lean ====
section
/-! DEFINITION. One step of the machine is one event (00_scope.md R160): the next one the host presents. With nothing on
offer the machine holds (41_sequencer.md R104; log 7). -/

namespace Sys2Proof.Machine

def step (s : State) : Host.Outcome State Fault Refusal :=
  match s.fetch with
  | none => .next s
  | some (f, t) =>
    match decodeEvent f with
    | .ok i => settleRead t (exec i t)
    | .error r => .refused (.undecodable r)

/-- The state whose next step runs the operation of a row's word (bits numbered as opcode_table.json numbers them);
unchanged where no format has that many bytes. This stands for the host presenting an event (log 6); for `MB4` and
`REC601` it stands for all that brings the block to performing them (log 12). -/
def State.withFetchWord (s : State) (nbits w : Nat) : State :=
  match Frame.ofBytes (tableBytes nbits w) with
  | .ok f => s.place f
  | .error _ => s

end Sys2Proof.Machine
end

