-- ==== Sys2Proof/Machine/Accumulator.lean ====
section
/-! DEFINITION. The converter evaluated in a signed two's-complement accumulator of `n` bits (00_scope.md R8
`ACC_BITS`, 40_converter.md R82), with the truncating division R81 allows. The machine does not use it: it is stated to
equal the exact converter of Machine/Converter.lean for every width the spec admits. -/

namespace Sys2Proof.Machine

/-- The luma in the accumulator: zero-extended (30_encoding.md R57). -/
def accLuma (n : Nat) (y : Byte) : BitVec n := y.setWidth n

/-- The chroma in the accumulator: its top bit inverted, then sign-extended (30_encoding.md R58). -/
def accChroma (n : Nat) (c : Byte) : BitVec n := (c ^^^ 0x80).signExtend n

/-- A coefficient in the accumulator. -/
def accConst (n : Nat) (k : Int) : BitVec n := BitVec.ofInt n k

/-- `NR` in the accumulator. -/
def accRed (n : Nat) (y cr : Byte) : BitVec n :=
  accConst n scale * accLuma n y + accConst n kRcr * accChroma n cr

/-- `NG` in the accumulator. -/
def accGreen (n : Nat) (y cb cr : Byte) : BitVec n :=
  accConst n scale * accLuma n y - accConst n kGcb * accChroma n cb - accConst n kGcr * accChroma n cr

/-- `NB` in the accumulator. -/
def accBlue (n : Nat) (y cb : Byte) : BitVec n :=
  accConst n scale * accLuma n y + accConst n kBcb * accChroma n cb

/-- The channel of an accumulated numerator: signed division truncating toward zero, the clamp, then the low byte. -/
def accChannel {n : Nat} (x : BitVec n) : Byte :=
  let q := x.sdiv (accConst n scale)
  if q.slt 0 then 0 else if (accConst n 255).slt q then 255 else q.setWidth 8

/-- `REC601` as an accumulator of `n` bits computes it. -/
def accRec601 (n : Nat) (y cb cr : Byte) : Pixel where
  r := accChannel (accRed n y cr)
  g := accChannel (accGreen n y cb cr)
  b := accChannel (accBlue n y cb)

end Sys2Proof.Machine
end

