-- ==== Sys2Proof/Machine/Reference.lean ====
section
/-! DEFINITION. The reference function `Decode(toks, w, h)` (41_sequencer.md R100), written from its own pseudocode over
arrays and numbers, apart from the machine. -/

namespace Sys2Proof.Machine

/-- The results of `Decode` (R100): a raster (each byte written or not), an error, or `Open`. -/
inductive Decoded where
  | ok (raster : List (Option Byte))
  | err (e : ErrKind)
  | unfinished
  deriving DecidableEq, Repr

/-- Entry `i` of an array of bytes. -/
def entry (mb : List Byte) (i : Nat) : Byte := mb.getD i 0

/-- The three assignments of lane `i` (R100). -/
def assignLane (k i : Nat) (mb : List Byte) (raster : List (Option Byte)) : List (Option Byte) :=
  let x := rec601 (entry mb i) (entry mb 4) (entry mb 5)
  ((raster.set (12 * k + 3 * i + 0) (some x.r)).set (12 * k + 3 * i + 1) (some x.g)).set (12 * k + 3 * i + 2) (some x.b)

/-- The loop over the four lanes (R100). -/
def assignMacroblock (k : Nat) (mb : List Byte) (raster : List (Option Byte)) : List (Option Byte) :=
  (List.range 4).foldl (fun r i => assignLane k i mb r) raster

/-- The loop over the tokens (R100): the result, and the tokens that were not looked at. -/
def decodeLoop (npix : Nat) : List Token → (mbi phase : Nat) → List Byte → List (Option Byte) → Decoded × List Token
  | [], _, _, _, _ => (.unfinished, [])
  | .byte b :: ts, mbi, phase, mb, raster =>
    if phase = 0 ∧ 4 * (mbi + 1) > npix then (.err .truncatedInput, ts)
    else if phase = 5 then
      decodeLoop npix ts (mbi + 1) 0 (mb.set phase b) (assignMacroblock mbi (mb.set phase b) raster)
    else decodeLoop npix ts mbi (phase + 1) (mb.set phase b) raster
  | .endTok :: ts, mbi, phase, _, raster =>
    if phase ≠ 0 then (.err .truncatedInput, ts)
    else if 4 * mbi ≠ npix then (.err .truncatedInput, ts)
    else (.ok raster, ts)
  | .fail :: ts, _, _, _, _ => (.err .unreadableSource, ts)

/-- `Decode(toks, w, h)`, with the tokens it did not look at (R100). -/
def decodeStream (toks : List Token) (w h : GeomWord) : Decoded × List Token :=
  decodeLoop (w.toNat * h.toNat) toks 0 0 (List.replicate 6 0) (List.replicate (3 * (w.toNat * h.toNat)) none)

end Sys2Proof.Machine
end

