-- ==== Sys2Proof/Machine/Flags.lean ====
section
/-! DEFINITION. The status bits (10_state.md R16, R18, R19): the machine has no condition codes; `STATUS` is a view of
the two fields that State stores (log 15). -/

namespace Sys2Proof.Machine

/-- The code of `ST` (R18). -/
def Ctrl.code : Ctrl → BitVec 2
  | .idle => 0b00
  | .run => 0b01
  | .done => 0b10
  | .err => 0b11

/-- The code of `ERR` (R19). -/
def ErrKind.code : ErrKind → BitVec 2
  | .noError => 0b00
  | .truncatedInput => 0b01
  | .unreadableSource => 0b10

/-- `STATUS`, the 4-bit register the host always sees: `ERR` in bits 3:2, `ST` in bits 1:0 (R18, R19). -/
def State.status (s : State) : BitVec 4 := s.err.code ++ s.st.code

end Sys2Proof.Machine
end

