-- ==== Sys2Proof/Safety.lean ====
section
/-! DEFINITION. What the statements are in terms of: the invariant of every state that host events reach, the premises of
a run (70_reset_and_hazards.md R152), a run's end (41_sequencer.md R104), and what one state shares with another. -/

namespace Sys2Proof.Machine

/-- The invariant of the machine (10_state.md R14, R15, R19; 41_sequencer.md R101, R103; 20_memory.md R39). -/
structure MachineInvariant (s : State) : Prop where
  /-- `ERR != NONE` exactly when `ST = ERR` (R19). -/
  errExact : s.err ≠ .noError ↔ s.st = .err
  /-- `6*MBI + PHASE <= 6 * (NPIX div 4)` (R103). -/
  bounded : s.consumed ≤ 6 * (s.npix / 4)
  /-- Before a run the position is `(0, 0)` and the geometry 0 by 0 (R23). -/
  idleClean : s.st = .idle → s.mbi = 0 ∧ s.phase = 0 ∧ s.width = 0 ∧ s.height = 0
  /-- `DONE` only with exactly `NPIX/4` macroblocks and no partial one (R95). -/
  doneExact : s.st = .done → s.phase = 0 ∧ 4 * s.mbi.toNat = s.npix
  /-- The raster is in canonical form. -/
  rasterWf : s.raster.wf = true
  /-- Every byte of a completed macroblock has been written (R39). -/
  rasterWritten : ∀ a, a < writePointer s.mbi.toNat → (s.raster.read a).isSome
  /-- No byte beyond the raster's capacity has (20_memory.md R30). -/
  rasterBounded : ∀ a, s.cap ≤ a → s.raster.read a = none

/-- `LegalGeometry` (00_scope.md R7, 70_reset_and_hazards.md R152); that the operands fit `GEOM_BITS` is their type. -/
def LegalGeometry (w h : GeomWord) : Prop := 1 ≤ w.toNat ∧ 1 ≤ h.toNat ∧ w.toNat % 4 = 0

/-- `WellFormedStream` (R152): finitely many `BYTE` tokens, then exactly one `END` or one `FAIL`. -/
def WellFormedStream (toks : List Token) : Prop :=
  ∃ bytes : List Byte, toks = bytes.map Token.byte ++ [.endTok] ∨ toks = bytes.map Token.byte ++ [.fail]

/-- `ResetState` (R152): `ST = IDLE`, no error recorded, position and geometry as 10_state.md R23 lists them, and no raster byte held. -/
def ResetState (s : State) : Prop :=
  s.st = .idle ∧ s.err = .noError ∧ s.mbi = 0 ∧ s.phase = 0 ∧ s.width = 0 ∧ s.height = 0 ∧ ∀ a, s.raster.read a = none

/-- The run has ended (R104). -/
def State.ended (s : State) : Prop := s.st = .done ∨ s.st = .err

/-- The block is the same in both states; the environment may differ. -/
def SameBlock (s t : State) : Prop := t = { s with env := t.env }

/-- The control part of the state is the same: `ST`, `ERR`, position, geometry; `MB` and `RASTER` may differ. -/
def SameControl (s t : State) : Prop :=
  s.st = t.st ∧ s.err = t.err ∧ s.mbi = t.mbi ∧ s.phase = t.phase ∧ s.width = t.width ∧ s.height = t.height

/-- Every raster byte outside `12*k .. 12*k + 11` reads the same in both. -/
def SameOutside (k : Nat) (m m' : Memory) : Prop :=
  ∀ a, a < writePointer k ∨ writePointer k + 12 ≤ a → m'.read a = m.read a

/-- The bytes of a raster of `n` bytes, in offset order. -/
def rasterBytes (m : Memory) (n : Nat) : List (Option Byte) := (List.range n).map m.read

/-- `n` steps, stopping at the first fault or refusal. -/
def runSteps : Nat → State → Host.Outcome State Fault Refusal
  | 0, s => .next s
  | n + 1, s => onNext (step s) (runSteps n)

/-- One whole call as the host presents it: `RESET`, `START w h`, the tokens (70_reset_and_hazards.md R142). -/
def callFrames (w h : GeomWord) (toks : List Token) : List Frame :=
  encode .reset :: encode (.start w h) :: toks.map Token.frame

/-- The outcome of one whole call, whatever state the host makes it in: `RESET`, `START w h`, the tokens, one step each. -/
def runCall (s : State) (w h : GeomWord) (toks : List Token) : Host.Outcome State Fault Refusal :=
  runSteps (toks.length + 2) (s.setOffers (callFrames w h toks))

end Sys2Proof.Machine
end

