-- ==== Sys2Proof/Script.lean ====
section
/-! DEFINITION. The textual form of a run, one line per event, and the three pseudo-operations that expand to such lines
(30_encoding.md R65, R66; log 19). They add nothing to the machine. -/

namespace Sys2Proof

/-- A line of a run (R65). -/
inductive Line where
  | reset
  | start (w h : GeomWord)
  | byte (b : Byte)
  | endTok
  | fail
  | rd (a : Nat)
  | comment (text : String)
  deriving DecidableEq, Repr

/-- The frame of a line; a comment has none (R65, column "Encoding"). -/
def Line.frame : Line → Option Frame
  | .reset => some (encode .reset)
  | .start w h => some (encode (.start w h))
  | .byte b => some (encode (.byte b))
  | .endTok => some (encode .endTok)
  | .fail => some (encode .fail)
  | .rd a => some (encode (.rd a))
  | .comment _ => none

/-- The text of a line, numbers in decimal (R65). -/
def Line.text : Line → String
  | .reset => "RESET"
  | .start w h => "START " ++ toString w.toNat ++ " " ++ toString h.toNat
  | .byte b => "BYTE " ++ toString b.toNat
  | .endTok => "END"
  | .fail => "FAIL"
  | .rd a => "RD " ++ toString a
  | .comment t => "; " ++ t

/-- `MB y0 y1 y2 y3 cb cr` (R66). -/
def mbLines (q : Macroblock) : List Line := [.byte q.y0, .byte q.y1, .byte q.y2, .byte q.y3, .byte q.cb, .byte q.cr]

/-- `REP n` of the enclosed lines (R66). -/
def repLines : Nat → List Line → List Line
  | 0, _ => []
  | n + 1, ls => ls ++ repLines n ls

/-- `ZEROS n` (R66). -/
def zerosLines (n : Nat) : List Line := repLines n [.byte 0]

/-- The frames of a run's lines, in order. -/
def scriptFrames (ls : List Line) : List Frame := ls.filterMap Line.frame

end Sys2Proof
end

