-- ==== Sys2Proof/Certificates/Slice0/Obligations.lean ====
section
/-! DEFINITION. What is claimed of the machine. Each docstring names the rule of spec/ it formalises; where a clause rests
on a choice of the model, it names the log entry. -/

open Sys2Proof Sys2Proof.Machine

/-! ## Encoding -/

/-- 30_encoding.md R51, R53 to R56, R60: no bit of an encoding is dropped. -/
def Obligations.DecodeOfEncodeIsTheOperation : Prop :=
  ∀ i : Instr, WellFormed i → decode (encode i) = .ok i

/-- 30_encoding.md R53, R60: a frame that decodes is the frame of its operation, but for the ignored data bits 7:0 of `END`
and `FAIL`: every bit above them is the same. What is decoded is well formed. -/
def Obligations.EncodeOfDecodeIsTheFrame : Prop :=
  ∀ (f : Frame) (i : Instr), decode f = .ok i →
    WellFormed i ∧ (encode i).port = f.port ∧
    (encode i = f ∨ ((i = .endTok ∨ i = .fail) ∧ (encode i).word.extractLsb' 8 40 = f.word.extractLsb' 8 40))

/-- The byte form of a frame (the model's, log 11) loses nothing either. -/
def Obligations.ByteStringsRoundTrip : Prop :=
  ∀ i : Instr, WellFormed i → decodeBytes (encode i).toBytes = .ok i

/-- Words the spec writes out (30_encoding.md R51, R53, R54, R56; 95_test_vectors.md P1, P7). -/
def Obligations.WordsOfTheSpecDecode : Prop :=
  decode ⟨.resetInput, 1⟩ = .ok .reset ∧
  decode ⟨.control, 0x00400030⟩ = .ok (.start 64 48) ∧
  decode ⟨.stream, 0x078⟩ = .ok (.byte 120) ∧
  decode ⟨.stream, 0x100⟩ = .ok .endTok ∧
  decode ⟨.stream, 0x200⟩ = .ok .fail ∧
  decode ⟨.lanes, 0x787878788133⟩ = .ok (.mb4 120 120 120 120 129 51) ∧
  decode ⟨.converter, 0x788133⟩ = .ok (.rec601 120 129 51) ∧
  decode ⟨.raster, 9215⟩ = .ok (.rd 9215)

/-- 30_encoding.md R51, R52, R53, R54, R55, R56, R60: the port of every operation, and where every field stands in its
format. -/
def Obligations.FormatFieldsStandWhereTheSpecPutsThem : Prop :=
  (encode .reset).port = .resetInput ∧
  (∀ w h : GeomWord, (encode (.start w h)).port = .control ∧
    (encode (.start w h)).word.extractLsb' 16 16 = w ∧ (encode (.start w h)).word.extractLsb' 0 16 = h) ∧
  (∀ k : Token, k.frame.port = .stream ∧
    (∀ b, k = .byte b → k.frame.word.extractLsb' 8 2 = 0b00#2 ∧ k.frame.word.extractLsb' 0 8 = b) ∧
    (k = .endTok → k.frame.word.extractLsb' 8 2 = 0b01#2) ∧ (k = .fail → k.frame.word.extractLsb' 8 2 = 0b10#2)) ∧
  (∀ y0 y1 y2 y3 cb cr : Byte,
    let f := encode (.mb4 y0 y1 y2 y3 cb cr)
    f.port = .lanes ∧ f.word.extractLsb' 40 8 = y0 ∧ f.word.extractLsb' 32 8 = y1 ∧ f.word.extractLsb' 24 8 = y2 ∧
    f.word.extractLsb' 16 8 = y3 ∧ f.word.extractLsb' 8 8 = cb ∧ f.word.extractLsb' 0 8 = cr) ∧
  (∀ y cb cr : Byte,
    let f := encode (.rec601 y cb cr)
    f.port = .converter ∧ f.word.extractLsb' 16 8 = y ∧ f.word.extractLsb' 8 8 = cb ∧ f.word.extractLsb' 0 8 = cr) ∧
  (∀ a : Nat, a < 2 ^ 34 → (encode (.rd a)).port = .raster ∧ (encode (.rd a)).word.toNat = a) ∧
  (∀ x : Pixel, x.toWord.extractLsb' 16 8 = x.r ∧ x.toWord.extractLsb' 8 8 = x.g ∧ x.toWord.extractLsb' 0 8 = x.b) ∧
  (rec601 120 129 51).toWord = 0x0CAE79

/-- 30_encoding.md R53: `t[9:8]` is the kind and `t[7:0]` the data byte, ignored for `END` and `FAIL`. -/
def Obligations.TokenKindsAreReadFromBits9And8 : Prop :=
  ∀ x : Byte,
    decode ⟨.stream, (0b00#2 ++ x).setWidth 48⟩ = .ok (.byte x) ∧
    decode ⟨.stream, (0b01#2 ++ x).setWidth 48⟩ = .ok .endTok ∧
    decode ⟨.stream, (0b10#2 ++ x).setWidth 48⟩ = .ok .fail ∧
    decode ⟨.stream, (0b11#2 ++ x).setWidth 48⟩ = .error .reservedTokenKind

/-- 30_encoding.md R53, R62: the reserved kind is refused; that it is so in every state, `IDLE`, `DONE` and `ERR` included,
is the model's choice (log 14), for R62 names no state. The data bits of `END` and `FAIL` make no difference to the step. -/
def Obligations.ReservedTokenKindIsRefused : Prop :=
  (∀ (s : State) (x : Byte) (fs : List Frame), s.env.offers = ⟨.stream, (0b11#2 ++ x).setWidth 48⟩ :: fs →
    step s = .refused (.undecodable .reservedTokenKind)) ∧
  (∀ (s : State) (x y : Byte) (fs : List Frame),
    step (s.setOffers (⟨.stream, (0b01#2 ++ x).setWidth 48⟩ :: fs)) = step (s.setOffers (⟨.stream, (0b01#2 ++ y).setWidth 48⟩ :: fs)) ∧
    step (s.setOffers (⟨.stream, (0b10#2 ++ x).setWidth 48⟩ :: fs)) = step (s.setOffers (⟨.stream, (0b10#2 ++ y).setWidth 48⟩ :: fs)))

/-! ## The converter -/

/-- 30_encoding.md R58: `c' = c - 128`, signed, which is the byte with its top bit inverted. -/
def Obligations.DebiasIsTheByteWithItsTopBitInverted : Prop :=
  ∀ c : Byte, debias c = (c.toNat : Int) - 128 ∧ debias c = (c ^^^ 0x80).toInt ∧ -128 ≤ debias c ∧ debias c ≤ 127

/-- 40_converter.md R72, R74: the red and the blue numerator and their extremes, of which `NB(255, 255)` is the largest
magnitude of any of the three numerators. -/
def Obligations.RedAndBlueNumerators : Prop :=
  (∀ y cr : Byte, numRed y cr = 100000 * (y.toNat : Int) + 140200 * ((cr.toNat : Int) - 128) ∧
    -17945600 ≤ numRed y cr ∧ numRed y cr ≤ 43305400) ∧
  (∀ y cb : Byte, numBlue y cb = 100000 * (y.toNat : Int) + 177200 * ((cb.toNat : Int) - 128) ∧
    -22681600 ≤ numBlue y cb ∧ numBlue y cb ≤ 48004400) ∧
  (numRed 0 0 = -17945600 ∧ numRed 255 255 = 43305400 ∧ numBlue 0 0 = -22681600 ∧ numBlue 255 255 = 48004400) ∧
  (numRed 120 51 = 1204600 ∧ numBlue 120 129 = 12177200) ∧
  (∀ y : Byte, numRed y 128 = 100000 * (y.toNat : Int) ∧ numBlue y 128 = 100000 * (y.toNat : Int)) ∧
  (∀ y cb cr : Byte, |numRed y cr| ≤ 48004400 ∧ |numGreen y cb cr| ≤ 48004400 ∧ |numBlue y cb| ≤ 48004400)

/-- 40_converter.md R73: the green numerator, its extremes, and where it is an exact multiple of the scale. -/
def Obligations.GreenNumeratorAndItsExactValues : Prop :=
  (∀ y cb cr : Byte,
    numGreen y cb cr = 100000 * (y.toNat : Int) - 34414 * ((cb.toNat : Int) - 128) - 71414 * ((cr.toNat : Int) - 128) ∧
    -13440156 ≤ numGreen y cb cr ∧ numGreen y cb cr ≤ 39045984) ∧
  (numGreen 0 255 255 = -13440156 ∧ numGreen 255 0 0 = 39045984 ∧ numGreen 120 129 51 = 17464464) ∧
  (∀ y : Byte, numGreen y 128 128 = 100000 * (y.toNat : Int) ∧ numGreen y 28 228 = 100000 * ((y.toNat : Int) - 37) ∧
    numGreen y 228 28 = 100000 * ((y.toNat : Int) + 37)) ∧
  (∀ y cb cr : Byte, (100000 : Int) ∣ numGreen y cb cr →
    (cb = 128 ∧ cr = 128) ∨ (cb = 28 ∧ cr = 228) ∨ (cb = 228 ∧ cr = 28))

/-- 40_converter.md R75, R76: the floor division by the scale, and the clamp. -/
def Obligations.DivisionIsFloorAndClampIsPerValue : Prop :=
  (∀ n : Int, divScale n * 100000 ≤ n ∧ n < (divScale n + 1) * 100000) ∧
  (divScale (-45600) = -1 ∧ divScale 0 = 0 ∧ divScale 99999 = 0 ∧ divScale 100000 = 1 ∧ divScale (-100000) = -1 ∧
    divScale 48004400 = 480 ∧ divScale (-22681600) = -227 ∧ divScale 17464464 = 174) ∧
  (∀ q : Int, ((clamp255 q).toNat : Int) = if q < 0 then 0 else if 255 < q then 255 else q)

/-- 40_converter.md R81: an implementation may use either division. -/
def Obligations.FloorAndTruncatingDivisionGiveOneByte : Prop :=
  ∀ n : Int, clamp255 (divScale n) = clamp255 (n.tdiv 100000)

/-- 40_converter.md R80: clamp and truncate commute, over the rationals, and the truncating division of the numerator
gives the same. -/
def Obligations.ClampAndTruncateCommute : Prop :=
  ∀ v : ℚ, ((clamp255 ⌊v⌋).toNat : Int) = ⌊max 0 (min 255 v)⌋ ∧ clamp255 (v.num.tdiv v.den) = clamp255 ⌊v⌋

/-- 40_converter.md R78: read over the rationals, the source's real-valued transform, clamped and then truncated, is
`REC601` on every input. -/
def Obligations.Rec601IsTheRealTransform : Prop :=
  ∀ y cb cr : Byte,
    let cb' : ℚ := (cb.toNat : ℚ) - 128
    let cr' : ℚ := (cr.toNat : ℚ) - 128
    let r : ℚ := (y.toNat : ℚ) + 1.40200 * cr'
    let g : ℚ := (y.toNat : ℚ) - 0.34414 * cb' - 0.71414 * cr'
    let b : ℚ := (y.toNat : ℚ) + 1.77200 * cb'
    r = (numRed y cr : ℚ) / 100000 ∧ g = (numGreen y cb cr : ℚ) / 100000 ∧ b = (numBlue y cb : ℚ) / 100000 ∧
    (((rec601 y cb cr).r.toNat : Int) = ⌊max 0 (min 255 r)⌋) ∧
    (((rec601 y cb cr).g.toNat : Int) = ⌊max 0 (min 255 g)⌋) ∧
    (((rec601 y cb cr).b.toNat : Int) = ⌊max 0 (min 255 b)⌋)

/-- 40_converter.md R82: the bounds of every product, numerator and quotient and of the partial sum the rule names, and that
a signed accumulator of 27 bits or more holds every product, every numerator, and every partial sum of every order of the
additions exactly (green has three terms, so three pairs can be added first). -/
def Obligations.AccumulatorOf27BitsNeverOverflows : Prop :=
  ∀ n : Nat, 27 ≤ n → ∀ y cb cr : Byte,
    (0 ≤ scale * luma y ∧ scale * luma y ≤ 25500000) ∧
    (-17945600 ≤ kRcr * debias cr ∧ kRcr * debias cr ≤ 17805400) ∧
    (-4404992 ≤ kGcb * debias cb ∧ kGcb * debias cb ≤ 4370578) ∧
    (-9140992 ≤ kGcr * debias cr ∧ kGcr * debias cr ≤ 9069578) ∧
    (-22681600 ≤ kBcb * debias cb ∧ kBcb * debias cb ≤ 22504400) ∧
    (-4370578 ≤ scale * luma y - kGcb * debias cb ∧ scale * luma y - kGcb * debias cb ≤ 29904992) ∧
    (accConst n scale * accLuma n y).toInt = scale * luma y ∧
    (accConst n kRcr * accChroma n cr).toInt = kRcr * debias cr ∧
    (accConst n kGcb * accChroma n cb).toInt = kGcb * debias cb ∧
    (accConst n kGcr * accChroma n cr).toInt = kGcr * debias cr ∧
    (accConst n kBcb * accChroma n cb).toInt = kBcb * debias cb ∧
    (accConst n scale * accLuma n y - accConst n kGcb * accChroma n cb).toInt = scale * luma y - kGcb * debias cb ∧
    (accConst n scale * accLuma n y - accConst n kGcr * accChroma n cr).toInt = scale * luma y - kGcr * debias cr ∧
    (accConst n kGcb * accChroma n cb + accConst n kGcr * accChroma n cr).toInt = kGcb * debias cb + kGcr * debias cr ∧
    (-(accConst n kGcb * accChroma n cb) - accConst n kGcr * accChroma n cr).toInt = -(kGcb * debias cb) - kGcr * debias cr ∧
    (-22681600 ≤ numRed y cr ∧ numRed y cr ≤ 48004400) ∧
    (-22681600 ≤ numGreen y cb cr ∧ numGreen y cb cr ≤ 48004400) ∧
    (-22681600 ≤ numBlue y cb ∧ numBlue y cb ≤ 48004400) ∧
    (accRed n y cr).toInt = numRed y cr ∧
    (accGreen n y cb cr).toInt = numGreen y cb cr ∧
    (accConst n scale * accLuma n y - accConst n kGcr * accChroma n cr - accConst n kGcb * accChroma n cb).toInt = numGreen y cb cr ∧
    (accConst n scale * accLuma n y - (accConst n kGcb * accChroma n cb + accConst n kGcr * accChroma n cr)).toInt = numGreen y cb cr ∧
    (accBlue n y cb).toInt = numBlue y cb ∧
    (∀ q ∈ [divScale (numRed y cr), divScale (numGreen y cb cr), divScale (numBlue y cb)], -227 ≤ q ∧ q ≤ 480)

/-- 00_scope.md R8, 40_converter.md R81, R82, R83: the accumulator datapath, whatever its width from 27 bits up and with
truncating division, computes `REC601`. -/
def Obligations.AccumulatorDatapathEqualsRec601 : Prop :=
  ∀ n : Nat, 27 ≤ n → ∀ y cb cr : Byte, accRec601 n y cb cr = rec601 y cb cr

/-- 40_converter.md R70, R77: the operation on every operand; its result is handed back (log 9) and nothing else changes.
That `REC601` is an operation of `exec` which answers a next state is the model's choice (log 12): the converter has no step
of its own (00_scope.md R160), and `step` never selects it. -/
def Obligations.Rec601HandsBackThePixel : Prop :=
  (∀ (y cb cr : Byte) (s : State),
    exec (.rec601 y cb cr) s =
      .next { s with env := { s.env with handed := .pixel (rec601 y cb cr) } } ∧
    rec601 y cb cr = ⟨clamp255 (divScale (numRed y cr)), clamp255 (divScale (numGreen y cb cr)), clamp255 (divScale (numBlue y cb))⟩) ∧
  (∀ y : Byte, rec601 y 128 128 = ⟨y, y, y⟩) ∧
  rec601 0 0 0 = ⟨0, 135, 0⟩ ∧ rec601 255 255 255 = ⟨255, 120, 255⟩ ∧ rec601 0 255 0 = ⟨0, 47, 225⟩ ∧
  (rec601 179 128 0).r = 0 ∧ rec601 255 0 255 = ⟨255, 208, 28⟩ ∧ rec601 120 129 51 = ⟨12, 174, 121⟩

/-! ## The operations of the sequencer and the host -/

/-- 41_sequencer.md R91. -/
def Obligations.StartBeginsARunOnlyInIdle : Prop :=
  ∀ (w h : GeomWord) (s : State),
    (s.st = .idle → exec (.start w h) s =
      .next { s with width := w, height := h, mbi := 0, phase := 0, err := .noError, st := .run }) ∧
    (s.st ≠ .idle → exec (.start w h) s = .next s)

/-- 41_sequencer.md R93, `PHASE` 0 to 4: the byte is stored in `MB[PHASE]`, `PHASE` advances, and nothing else changes, the
whole raster included. -/
def Obligations.ByteOfAnUnfinishedMacroblockIsStored : Prop :=
  ∀ (b : Byte) (s : State), s.st = .run → s.phase ≠ 5 → (s.phase = 0 → 4 * (s.mbi.toNat + 1) ≤ s.npix) →
    ∃ t, exec (.byte b) s = .next t ∧
      (∀ j, t.mb.get j = if j = s.phase then b else s.mb.get j) ∧
      t.phase.val = s.phase.val + 1 ∧
      t = { s with mb := t.mb, phase := t.phase }

/-- 41_sequencer.md R93, R94, `PHASE` 5: the macroblock is converted with the new `MB[5]`, its twelve bytes are written at the
offsets of macroblock `MBI`, the position advances to the next boundary, and nothing else changes. -/
def Obligations.SixthByteEmitsTheMacroblock : Prop :=
  ∀ (b : Byte) (s : State), s.st = .run → s.phase = 5 → 4 * (s.mbi.toNat + 1) ≤ s.npix →
    ∃ t, exec (.byte b) s = .next t ∧
      t.mb = { s.mb with cr := b } ∧
      t.phase = 0 ∧ t.mbi.toNat = s.mbi.toNat + 1 ∧
      (∀ (i : Fin 4) (c : Fin 3), t.raster.read (laneOffset s.mbi.toNat i c) = some ((rec601 (s.mb.luma i) s.mb.cb b).channel c)) ∧
      SameOutside s.mbi.toNat s.raster t.raster ∧
      t = { s with mb := t.mb, phase := t.phase, mbi := t.mbi, raster := t.raster }

/-- 41_sequencer.md R93, case T3 of 60_exceptions.md R121: the first excess byte raises the error and is not stored. -/
def Obligations.ByteBeyondTheRasterIsTruncatedInput : Prop :=
  ∀ (b : Byte) (s : State), s.st = .run → s.phase = 0 → s.npix < 4 * (s.mbi.toNat + 1) →
    exec (.byte b) s = .next { s with err := .truncatedInput, st := .err }

/-- 41_sequencer.md R93: the sixth byte performs `MB4` on the registers with the new `MB[5]`, and then advances the position. -/
def Obligations.SixthBytePerformsMb4 : Prop :=
  ∀ (b : Byte) (s : State), s.st = .run → s.phase = 5 →
    exec (.byte b) s =
      onNext (exec (.mb4 s.mb.y0 s.mb.y1 s.mb.y2 s.mb.y3 s.mb.cb b) (s.writeMb 5 b)) fun t => .next (t.setPos (s.mbi + 1) 0)

/-- 41_sequencer.md R94, R107: every lane its own luma and the one chroma pair; the twelve bytes are written, and nothing
else changes. -/
def Obligations.Mb4WritesTheTwelveBytes : Prop :=
  ∀ (y0 y1 y2 y3 cb cr : Byte) (s : State), s.st = .run → 4 * (s.mbi.toNat + 1) ≤ s.npix →
    ∃ t, exec (.mb4 y0 y1 y2 y3 cb cr) s = .next t ∧
      (∀ c : Fin 3, t.raster.read (12 * s.mbi.toNat + c.val) = some ((rec601 y0 cb cr).channel c) ∧
        t.raster.read (12 * s.mbi.toNat + 3 + c.val) = some ((rec601 y1 cb cr).channel c) ∧
        t.raster.read (12 * s.mbi.toNat + 6 + c.val) = some ((rec601 y2 cb cr).channel c) ∧
        t.raster.read (12 * s.mbi.toNat + 9 + c.val) = some ((rec601 y3 cb cr).channel c)) ∧
      SameOutside s.mbi.toNat s.raster t.raster ∧
      t = { s with raster := t.raster }

/-- 41_sequencer.md R94 ("and only there"), 20_memory.md R30: where `MB4` stops (log 12, log 13). -/
def Obligations.Mb4StopsOutsideARunAndOutsideTheRaster : Prop :=
  ∀ (y0 y1 y2 y3 cb cr : Byte) (s : State),
    (s.st ≠ .run → exec (.mb4 y0 y1 y2 y3 cb cr) s = .refused .mb4OutsideRun) ∧
    (s.st = .run → s.cap < 12 * s.mbi.toNat + 12 → exec (.mb4 y0 y1 y2 y3 cb cr) s = .fault .rasterOutOfRange)

/-- 41_sequencer.md R95: what `END` does in a run, and that `DONE` is entered by it alone. -/
def Obligations.EndClosesExactlyAFullRaster : Prop :=
  (∀ s : State, s.st = .run →
    (s.phase = 0 → 4 * s.mbi.toNat = s.npix → exec .endTok s = .next { s with st := .done }) ∧
    (s.phase ≠ 0 ∨ 4 * s.mbi.toNat ≠ s.npix → exec .endTok s = .next { s with err := .truncatedInput, st := .err })) ∧
  (∀ (i : Instr) (s t : State), exec i s = .next t → t.st = .done → s.st ≠ .done →
    i = .endTok ∧ s.st = .run ∧ s.phase = 0 ∧ 4 * s.mbi.toNat = s.npix)

/-- 41_sequencer.md R96. -/
def Obligations.FailIsUnreadableSourceAtAnyPosition : Prop :=
  ∀ s : State, s.st = .run → exec .fail s = .next { s with err := .unreadableSource, st := .err }

/-- 41_sequencer.md R92: outside `RUN` a token is not taken, changes no state, and stays with the host's source (where the
model keeps it, log 8); in `RUN` a token whose step completes is taken. -/
def Obligations.TokensAreTakenOnlyInRun : Prop :=
  ∀ (k : Token) (s : State),
    (s.st ≠ .run → exec k.toInstr s = .next { s with env := { s.env with untaken := s.env.untaken ++ [k] } }) ∧
    (s.st = .run → ∀ t, exec k.toInstr s = .next t → t.env = s.env)

/-- 41_sequencer.md R97, 10_state.md R23: the reset values, from every state; what is with the host stays with it. Of `MB`,
which holds no value then, nothing is said. -/
def Obligations.ResetForcesTheResetValues : Prop :=
  ∀ s : State, ∃ t, exec .reset s = .next t ∧ ResetState t ∧ t.status = 0b0000 ∧ t.env = s.env

/-- 10_state.md R23, 70_reset_and_hazards.md R140: the state after power-on is a reset state, with nothing on offer (log 6). -/
def Obligations.PowerOnIsAResetState : Prop :=
  ResetState State.reset ∧ State.reset.status = 0b0000 ∧ State.reset.env.offers = []

/-- 41_sequencer.md R98: the byte, and no state change; otherwise no step and no value. -/
def Obligations.ReadReturnsTheRasterByteOnlyInDone : Prop :=
  ∀ (a : Nat) (s : State),
    (∀ v, s.st = .done → a < s.cap → s.raster.read a = some v →
      exec (.rd a) s = .next { s with env := { s.env with handed := .byte v } }) ∧
    (¬(s.st = .done ∧ a < s.cap) → exec (.rd a) s = .refused .readNotEnabled)

/-- 41_sequencer.md R98, R101: in every state the invariant allows, `DONE` and `a < CAP` are all an `RD` needs. That the byte
is handed back in the environment is the model's choice (log 9). -/
def Obligations.EveryByteOfADoneRasterCanBeRead : Prop :=
  ∀ (a : Nat) (s : State), MachineInvariant s → s.st = .done → a < s.cap →
    ∃ v, s.raster.read a = some v ∧ exec (.rd a) s = .next { s with env := { s.env with handed := .byte v } }

/-- 20_memory.md R40: a read that returns is idempotent: the block is unchanged, `STATUS` included, and the same read again
is the same step. (That the byte is handed back in the environment is log 9.) -/
def Obligations.ReadIsIdempotent : Prop :=
  ∀ (a : Nat) (s t : State), exec (.rd a) s = .next t →
    SameBlock s t ∧ t.status = s.status ∧ exec (.rd a) t = .next t

/-! ## The step -/

/-- 00_scope.md R160, 10_state.md R24: a step is one event, on one of the four ports a host reaches; the frame at the head of
the offers is run as the operation it decodes to. A refused read hands back nothing and the next event follows (log 10); a
frame that does not decode is refused, and so is a frame for a place inside the block (log 12), so that no step is `MB4` or
`REC601` by itself. -/
def Obligations.StepRunsTheDecodedOperation : Prop :=
  (∀ (s : State) (f : Frame) (fs : List Frame), s.env.offers = f :: fs →
    let s' : State := { s with env := { s.env with offers := fs } }
    (f.port.hostVisible = true →
      (∀ i, decode f = .ok i →
        (exec i s' = .refused .readNotEnabled → step s = .next { s' with env := { s'.env with handed := .refused } }) ∧
        (exec i s' ≠ .refused .readNotEnabled → step s = exec i s')) ∧
      (∀ r, decode f = .error r → step s = .refused (.undecodable r))) ∧
    (f.port.hostVisible = false → step s = .refused (.undecodable .internalPort))) ∧
  (∀ (f : Frame) (i : Instr), f.port.hostVisible = true → decode f = .ok i →
    (∀ y0 y1 y2 y3 cb cr, i ≠ .mb4 y0 y1 y2 y3 cb cr) ∧ ∀ y cb cr, i ≠ .rec601 y cb cr)

/-- 41_sequencer.md R104, 70_reset_and_hazards.md R141: with nothing on offer the machine holds (log 7). -/
def Obligations.NothingOnOfferIsAHold : Prop :=
  ∀ s : State, s.env.offers = [] → step s = .next s

/-- 41_sequencer.md R98, R106, 95_test_vectors.md P10: a refused read leaves the block as it was and the next event follows
(the model's reading, log 10). -/
def Obligations.RefusedReadLeavesTheBlockAlone : Prop :=
  ∀ (s : State) (a : Nat) (fs : List Frame), a < 2 ^ 34 → s.env.offers = encode (.rd a) :: fs → ¬(s.st = .done ∧ a < s.cap) →
    ∃ t, step s = .next t ∧ SameBlock s t ∧ t.env.offers = fs ∧ t.env.handed = .refused ∧ t.env.untaken = s.env.untaken

/-- 10_state.md R14, R15, R19; 41_sequencer.md R95, R103; 20_memory.md R30, R39: `MachineInvariant` is kept by every step. -/
def Obligations.EveryStepKeepsTheInvariant : Prop :=
  ∀ s t : State, MachineInvariant s → step s = .next t → MachineInvariant t

/-- The invariant holds after reset. -/
def Obligations.ResetHasTheInvariant : Prop := MachineInvariant State.reset

/-- 60_exceptions.md R123, 41_sequencer.md R109: in a state the invariant allows, every event a host can present takes a step.
That a read which is not enabled takes one (log 10; 41_sequencer.md R98 gives it none), and that a token outside `RUN` does
(log 8), is the model's choice. -/
def Obligations.EveryHostEventTakesAStep : Prop :=
  ∀ (s : State) (f : Frame) (fs : List Frame) (i : Instr), MachineInvariant s → s.env.offers = f :: fs → f.port.hostVisible = true →
    decode f = .ok i → ∃ t, step s = .next t

/-! ## Rules about every operation -/

/-- 60_exceptions.md R121, R122, R123: the three causes of `TruncatedInput`, the one of `UnreadableSource`, and no other. -/
def Obligations.ErrorsAreRaisedExactlyInTheirCases : Prop :=
  ∀ (i : Instr) (s t : State), s.st ≠ .err → exec i s = .next t →
    ((t.st = .err ∧ t.err = .truncatedInput) ↔ s.st = .run ∧
      ((i = .endTok ∧ s.phase ≠ 0) ∨
       (i = .endTok ∧ s.phase = 0 ∧ 4 * s.mbi.toNat ≠ s.npix) ∨
       ((∃ b, i = .byte b) ∧ s.phase = 0 ∧ s.npix < 4 * (s.mbi.toNat + 1)))) ∧
    ((t.st = .err ∧ t.err = .unreadableSource) ↔ s.st = .run ∧ i = .fail) ∧
    (t.st = .err → t.err ≠ .noError)

/-- 60_exceptions.md R128, R129: an error writes `ERR` and `ST` and nothing else, the offending byte included. -/
def Obligations.RaisingAnErrorWritesOnlyStatus : Prop :=
  ∀ (i : Instr) (s t : State), s.st ≠ .err → exec i s = .next t → t.st = .err →
    t = { s with st := .err, err := t.err } ∧ (∀ a, t.raster.read a = s.raster.read a)

/-- 41_sequencer.md R106: every change of `ST`. -/
def Obligations.ControlStateFollowsTheTransitionTable : Prop :=
  ∀ (i : Instr) (s t : State), exec i s = .next t → t.st ≠ s.st →
    (i = .reset ∧ t.st = .idle) ∨
    ((∃ w h, i = .start w h) ∧ s.st = .idle ∧ t.st = .run) ∨
    (i = .endTok ∧ s.st = .run ∧ s.phase = 0 ∧ 4 * s.mbi.toNat = s.npix ∧ t.st = .done) ∨
    ((i = .endTok ∨ i = .fail ∨ ∃ b, i = .byte b) ∧ s.st = .run ∧ t.st = .err)

/-- 41_sequencer.md R104, 60_exceptions.md R130, R131: `DONE` and `ERR` are quiescent until `RESET`. -/
def Obligations.OnlyResetLeavesAnEndedRun : Prop :=
  ∀ (i : Instr) (s t : State), s.ended → exec i s = .next t → i ≠ .reset →
    SameBlock s t ∧ t.status = s.status ∧ (∀ a, t.raster.read a = s.raster.read a)

/-- 10_state.md R15: the position moves forward by one byte with every accepted `BYTE` (taken in `RUN`, no error raised),
goes to `(0, 0)` with every reset and every `START` in `IDLE`, and in every other case stays. -/
def Obligations.PositionMovesOnlyForward : Prop :=
  ∀ (i : Instr) (s t : State), exec i s = .next t →
    let accepted := (∃ b, i = .byte b) ∧ s.st = .run ∧ t.st = .run
    let cleared := i = .reset ∨ ((∃ w h, i = .start w h) ∧ s.st = .idle)
    (accepted → t.consumed = s.consumed + 1) ∧
    (cleared → t.mbi = 0 ∧ t.phase = 0) ∧
    (¬accepted → ¬cleared → t.mbi = s.mbi ∧ t.phase = s.phase)

/-- 10_state.md R17: the geometry is latched by `START` in `IDLE`, cleared by reset, and otherwise holds. -/
def Obligations.GeometryHoldsDuringARun : Prop :=
  ∀ (i : Instr) (s t : State), exec i s = .next t →
    (t.width = s.width ∧ t.height = s.height) ∨ (i = .reset ∧ t.width = 0 ∧ t.height = 0) ∨
    (∃ w h, i = .start w h ∧ s.st = .idle ∧ t.width = w ∧ t.height = h)

/-- 10_state.md R11: `MB[j]` is written only by a `BYTE` taken with `PHASE = j` (and by reset). -/
def Obligations.RegistersAreWrittenOnlyByTheirByte : Prop :=
  ∀ (i : Instr) (s t : State) (j : Fin 6), exec i s = .next t → t.mb.get j ≠ s.mb.get j →
    i = .reset ∨ (s.st = .run ∧ s.phase = j ∧ i = .byte (t.mb.get j))

/-- 10_state.md R10, R20; 20_memory.md R30, R39: the raster is written only by `MB4`, in a sixth `BYTE` or as an
operation of `exec` by itself (the model's, log 12), and only at the twelve offsets of macroblock `MBI`; reset leaves it
without a value; every other operation leaves every byte as it was. -/
def Obligations.RasterIsWrittenOnlyByMb4 : Prop :=
  ∀ (i : Instr) (s t : State), exec i s = .next t →
    (∀ a, t.raster.read a = s.raster.read a) ∨
    (i = .reset ∧ ∀ a, t.raster.read a = none) ∨
    (s.st = .run ∧ ((∃ b, i = .byte b ∧ s.phase = 5) ∨ (∃ y0 y1 y2 y3 cb cr, i = .mb4 y0 y1 y2 y3 cb cr)) ∧
      SameOutside s.mbi.toNat s.raster t.raster ∧
      ∀ a, writePointer s.mbi.toNat ≤ a → a < writePointer s.mbi.toNat + 12 → (t.raster.read a).isSome ∧ a < s.cap)

/-- 10_state.md R21, 41_sequencer.md R92: what an operation does to the environment (the model's own, log 6, log 8, log 9). -/
def Obligations.EnvironmentChangesOnlyByUntakenTokensAndResults : Prop :=
  ∀ (i : Instr) (s t : State), exec i s = .next t →
    t.env.offers = s.env.offers ∧
    (t.env.untaken = s.env.untaken ∨ ∃ k : Token, i = k.toInstr ∧ s.st ≠ .run ∧ t.env.untaken = s.env.untaken ++ [k]) ∧
    (t.env.handed = s.env.handed ∨
      (∃ y cb cr, i = .rec601 y cb cr ∧ t.env.handed = .pixel (rec601 y cb cr)) ∨
      (∃ a v, i = .rd a ∧ s.st = .done ∧ a < s.cap ∧ s.raster.read a = some v ∧ t.env.handed = .byte v))

/-- 41_sequencer.md R106: no byte value changes which transition is taken. -/
def Obligations.NoByteValueSteersAStep : Prop :=
  ∀ (b b' : Byte) (s s' : State), SameControl s s' →
    (∃ t t', exec (.byte b) s = .next t ∧ exec (.byte b') s' = .next t' ∧ SameControl t t') ∨
    (∃ r, exec (.byte b) s = .fault r ∧ exec (.byte b') s' = .fault r)

/-- 10_state.md R18, R19: the codes of `STATUS`, and that the reserved code is never produced. -/
def Obligations.StatusHasTheSpecsCodes : Prop :=
  (∀ s : State,
    s.status.extractLsb' 0 2 = (match s.st with | .idle => 0b00#2 | .run => 0b01#2 | .done => 0b10#2 | .err => 0b11#2) ∧
    s.status.extractLsb' 2 2 =
      (match s.err with | .noError => 0b00#2 | .truncatedInput => 0b01#2 | .unreadableSource => 0b10#2) ∧
    s.status.extractLsb' 2 2 ≠ 0b11#2) ∧
  (∀ s : State, MachineInvariant s → (s.status.extractLsb' 2 2 ≠ 0b00#2 ↔ s.status.extractLsb' 0 2 = 0b11#2))

/-! ## The raster's layout -/

/-- 20_memory.md R34, R35: lane `i` of macroblock `k` is pixel `4k + i`; its bytes lie at `3p + c`; with `WIDTH` a positive
multiple of 4 the four pixels lie in one row, at adjacent columns. -/
def Obligations.FourPixelsOfAMacroblockLieInOneRow : Prop :=
  (∀ (k : Nat) (i : Fin 4) (c : Fin 3), laneOffset k i c = 3 * (4 * k + i.val) + c.val) ∧
  (∀ w p : Nat, 0 < w → pixelIndex w (pixelColumn w p) (pixelRow w p) = p ∧ pixelColumn w p < w) ∧
  (∀ (w k : Nat) (i : Fin 4), 0 < w → w % 4 = 0 →
    pixelRow w (4 * k + i.val) = pixelRow w (4 * k) ∧ pixelColumn w (4 * k + i.val) = 4 * (k % (w / 4)) + i.val)

/-- 20_memory.md R44, 41_sequencer.md R105: the writes of different macroblocks, and of different lanes of one, may come in
either order: the raster is the same. -/
def Obligations.MacroblockAndLaneWritesCommute : Prop :=
  (∀ (k l : Nat) (p q : Macroblock) (m : Memory), k ≠ l → m.wf = true →
    writeMacroblock k p (writeMacroblock l q m) = writeMacroblock l q (writeMacroblock k p m)) ∧
  (∀ (k : Nat) (i j : Fin 4) (x y : Pixel) (m : Memory), i ≠ j → m.wf = true →
    writeLane k i x (writeLane k j y m) = writeLane k j y (writeLane k i x m))

/-! ## Whole runs -/

/-- 20_memory.md R31, 30_encoding.md R51, R66: the six lines of `MB y0 y1 y2 y3 cb cr` on a boundary with room are one
macroblock: the registers hold it, `MB4` has been performed on it, and the position is the next boundary. (That `exec` runs
`MB4` by itself, to compare with, is the model's choice, log 12.) -/
def Obligations.SixBytesAreOneMacroblock : Prop :=
  ∀ (s : State) (q : Macroblock) (fs : List Frame), s.st = .run → s.phase = 0 → 4 * (s.mbi.toNat + 1) ≤ s.npix →
    s.env.offers = scriptFrames (mbLines q) ++ fs →
    ∃ t u, runSteps 6 s = .next t ∧ exec (.mb4 q.y0 q.y1 q.y2 q.y3 q.cb q.cr) s = .next u ∧
      t = { s with mb := q, mbi := s.mbi + 1, raster := u.raster, env := { s.env with offers := fs } } ∧
      t.consumed = s.consumed + 6

/-- 41_sequencer.md R102: the machine and `Decode` agree, on every token list and geometry and from every state the call is
made in; and the machine takes exactly the tokens that `Decode` looks at (those it does not take are kept in a list, log 8). -/
def Obligations.MachineAgreesWithDecode : Prop :=
  ∀ (s : State) (w h : GeomWord) (toks : List Token),
    ∃ t, runCall s w h toks = .next t ∧ t.env.offers = [] ∧
      t.env.untaken = s.env.untaken ++ (decodeStream toks w h).2 ∧
      t.width = w ∧ t.height = h ∧
      match (decodeStream toks w h).1 with
      | .ok raster => t.st = .done ∧ t.err = .noError ∧ rasterBytes t.raster t.cap = raster
      | .err e => t.st = .err ∧ t.err = e
      | .unfinished => t.st = .run ∧ t.err = .noError

/-- 41_sequencer.md R101: what `Decode` gives, in closed form. The condition is read with both of its parts, `n = w*h*3/2` and
`w*h mod 4 = 0` (log 17). -/
def Obligations.DecodeInClosedForm : Prop :=
  ∀ (bytes : List Byte) (w h : GeomWord),
    let npix := w.toNat * h.toNat
    let result := (decodeStream (bytes.map Token.byte ++ [.endTok]) w h).1
    (2 * bytes.length = 3 * npix ∧ npix % 4 = 0 →
      ∃ raster, result = .ok raster ∧ raster.length = 3 * npix ∧
        ∀ (p : Nat) (c : Fin 3), p < npix →
          raster[3 * p + c.val]? = some (some
            ((rec601 (bytes.getD (6 * (p / 4) + p % 4) 0) (bytes.getD (6 * (p / 4) + 4) 0) (bytes.getD (6 * (p / 4) + 5) 0)).channel c))) ∧
    (¬(2 * bytes.length = 3 * npix ∧ npix % 4 = 0) → result = .err .truncatedInput)

/-- 41_sequencer.md R98, R101, R102; 20_memory.md R41, R42: a call with a valid stream ends in `DONE`, and every `RD` in the
raster then hands back the converted sample, the block unchanged (handed back in the environment, log 9). -/
def Obligations.ValidStreamIsReadBackConverted : Prop :=
  ∀ (s : State) (w h : GeomWord) (bytes : List Byte),
    2 * bytes.length = 3 * (w.toNat * h.toNat) → w.toNat * h.toNat % 4 = 0 →
    ∃ t, runCall s w h (bytes.map Token.byte ++ [.endTok]) = .next t ∧ t.st = .done ∧ t.cap = 3 * (w.toNat * h.toNat) ∧
      ∀ (p : Nat) (c : Fin 3), p < w.toNat * h.toNat →
        let x := rec601 (bytes.getD (6 * (p / 4) + p % 4) 0) (bytes.getD (6 * (p / 4) + 4) 0) (bytes.getD (6 * (p / 4) + 5) 0)
        exec (.rd (3 * p + c.val)) t = .next { t with env := { t.env with handed := .byte (x.channel c) } }

/-- 41_sequencer.md R103: the bounds of a run (the tokens taken are counted by those left untaken, log 8). -/
def Obligations.ARunIsBounded : Prop :=
  ∀ (s : State) (w h : GeomWord) (toks : List Token),
    ∃ t, runCall s w h toks = .next t ∧
      t.consumed ≤ 6 * (npixOf w h / 4) ∧
      toks.length + s.env.untaken.length ≤ t.env.untaken.length + (6 * (npixOf w h / 4) + 1) ∧
      (6 * (npixOf w h / 4) < toks.length → t.ended) ∧
      (npixOf w h % 4 ≠ 0 → t.st ≠ .done)

/-- 60_exceptions.md R127: the error of the earliest token that raises any is the one reported. Once a call is in `ERR` no
further token changes the error; a `FAIL` before the first excess byte gives `UnreadableSource`; the first excess byte gives
`TruncatedInput` (that it is the first one is OVERLONG_AT, log 3), and so does an `END` on a stream of the wrong length
(cases T1, T2, T3; both parts of the length condition, log 17), whatever follows. -/
def Obligations.TheEarliestErrorWins : Prop :=
  ∀ (s : State) (w h : GeomWord) (bytes : List Byte) (rest : List Token),
    (bytes.length ≤ 6 * (npixOf w h / 4) →
      ∃ t, runCall s w h (bytes.map Token.byte ++ .fail :: rest) = .next t ∧ t.st = .err ∧ t.err = .unreadableSource) ∧
    (6 * (npixOf w h / 4) < bytes.length →
      ∃ t, runCall s w h (bytes.map Token.byte ++ rest) = .next t ∧ t.st = .err ∧ t.err = .truncatedInput) ∧
    (¬(2 * bytes.length = 3 * npixOf w h ∧ npixOf w h % 4 = 0) →
      ∃ t, runCall s w h (bytes.map Token.byte ++ .endTok :: rest) = .next t ∧ t.st = .err ∧ t.err = .truncatedInput) ∧
    (∀ (toks : List Token) (t : State), runCall s w h toks = .next t → t.st = .err →
      ∃ u, runCall s w h (toks ++ rest) = .next u ∧ u.st = .err ∧ u.err = t.err)

/-- 70_reset_and_hazards.md R146, R152: a run whose stream is well formed ends, within the steps of its tokens. -/
def Obligations.WellFormedStreamsEndTheRun : Prop :=
  ∀ (s : State) (w h : GeomWord) (toks : List Token), WellFormedStream toks →
    ∃ t, runCall s w h toks = .next t ∧ t.ended ∧ (t.st = .done → toks.getLast? = some .endTok)

/-- 20_memory.md R45: what a call ends in depends on the token list and the geometry alone, not on what came before. -/
def Obligations.ACallDoesNotDependOnHistory : Prop :=
  ∀ (s s' : State) (w h : GeomWord) (toks : List Token),
    ∃ t t', runCall s w h toks = .next t ∧ runCall s' w h toks = .next t' ∧
      SameControl t t' ∧ (∀ a, t.raster.read a = t'.raster.read a)

/-- 41_sequencer.md R106: only the count of bytes and the kinds of tokens steer a run, never a byte's value. -/
def Obligations.OnlyTokenKindsSteerARun : Prop :=
  ∀ (s s' : State) (w h : GeomWord) (toks toks' : List Token),
    toks.map (fun k => match k with | .byte _ => Token.byte 0 | k => k) =
      toks'.map (fun k => match k with | .byte _ => Token.byte 0 | k => k) →
    ∃ t t', runCall s w h toks = .next t ∧ runCall s' w h toks' = .next t' ∧ SameControl t t'
end

