-- ==== Sys2Proof/Laws/Converter.lean ====
section
/-! SUPPORT. The converter's parts as numbers. -/

namespace Sys2Proof.Machine

theorem luma_bounds (y : Byte) : 0 ≤ luma y ∧ luma y ≤ 255 := by
  have := y.isLt
  unfold luma
  omega

theorem debias_bounds (c : Byte) : -128 ≤ debias c ∧ debias c ≤ 127 := by
  have := c.isLt
  unfold debias bias
  omega

theorem divScale_eq (n : Int) : divScale n = n / 100000 := rfl

/-- The clamp as a number: the quotient itself where it lies in 0 to 255. -/
theorem clamp255_toNat (q : Int) : ((clamp255 q).toNat : Int) = max 0 (min 255 q) := by
  unfold clamp255
  split
  · rw [max_eq_left (by omega)]; rfl
  · split
    · rw [min_eq_left (by omega)]; rfl
    · rw [min_eq_right (by omega), max_eq_right (by omega), BitVec.toNat_ofInt]
      omega

theorem clamp255_low {q : Int} (h : q ≤ 0) : clamp255 q = 0 := by
  unfold clamp255
  split
  · rfl
  · have : q = 0 := by omega
    subst this
    rfl

end Sys2Proof.Machine
end

