-- ==== Sys2Proof/Laws/Decode.lean ====
section
/-! SUPPORT. Words and fields as numbers: the value of every encoded word, and what the decoder reads from a frame that
fits its port. -/

namespace Sys2Proof

theorem wellFormed_rd {a : Nat} : WellFormed (.rd a) ↔ a < 17179869184 := by
  show decide (a < 2 ^ Config.offsetBits) = true ↔ _
  exact decide_eq_true_iff

theorem Frame.fits_iff (f : Frame) : f.fits = true ↔ f.word.toNat < 2 ^ f.port.bits := decide_eq_true_iff

/-- A frame that fits is read by its port's format. -/
theorem decode_of_fits {f : Frame} (h : f.word.toNat < 2 ^ f.port.bits) : decode f = decodeWord f.port f.word := by
  unfold decode
  rw [if_pos (f.fits_iff.mpr h)]

/-- A frame that does not fit is rejected. -/
theorem decode_of_stray {f : Frame} (h : 2 ^ f.port.bits ≤ f.word.toNat) : decode f = .error .strayBits := by
  unfold decode
  rw [if_neg]
  rw [f.fits_iff]
  omega

/-- A decoded frame fits its port. -/
theorem fits_of_decode {f : Frame} {i : Instr} (h : decode f = .ok i) :
    f.word.toNat < 2 ^ f.port.bits ∧ decodeWord f.port f.word = .ok i := by
  by_cases hf : f.word.toNat < 2 ^ f.port.bits
  · exact ⟨hf, decode_of_fits hf ▸ h⟩
  · rw [decode_of_stray (by omega)] at h; cases h

/-- An event is on a host port, and decodes. -/
theorem decodeEvent_ok_iff {f : Frame} {i : Instr} : decodeEvent f = .ok i ↔ f.port.hostVisible = true ∧ decode f = .ok i := by
  unfold decodeEvent
  split <;> simp [*]

/-- On a host port the event is what the frame decodes to. -/
theorem decodeEvent_of_host {f : Frame} (h : f.port.hostVisible = true) : decodeEvent f = decode f := if_pos h

/-- No event comes on a place inside the block. -/
theorem decodeEvent_of_internal {f : Frame} (h : f.port.hostVisible = false) : decodeEvent f = .error .internalPort := by
  unfold decodeEvent
  rw [if_neg (by simp [h])]

/-- `MB4` and `REC601` are no events. -/
theorem event_not_internal {f : Frame} {i : Instr} (h : decodeEvent f = .ok i) :
    (∀ y0 y1 y2 y3 cb cr, i ≠ .mb4 y0 y1 y2 y3 cb cr) ∧ ∀ y cb cr, i ≠ .rec601 y cb cr := by
  obtain ⟨hp, hd⟩ := decodeEvent_ok_iff.mp h
  obtain ⟨-, hw⟩ := fits_of_decode hd
  revert hw hp
  cases f.port <;> simp only [Port.hostVisible, decodeWord, decodeToken] <;> intro hp hw
  all_goals first
    | exact absurd hp (by decide)
    | (split at hw <;> (try split at hw) <;> (try split at hw) <;> cases hw <;> exact ⟨nofun, nofun⟩)
    | (cases hw; exact ⟨nofun, nofun⟩)

/-- A field of a word, as a number. -/
theorem field_toNat (x : BitVec 48) (lo len : Nat) : (x.extractLsb' lo len).toNat = x.toNat / 2 ^ lo % 2 ^ len := by
  rw [BitVec.extractLsb'_toNat, Nat.shiftRight_eq_div_pow]

/-- A word with a further byte below it. -/
theorem append_byte_toNat {n : Nat} (x : BitVec n) (y : Byte) : (x ++ y).toNat = x.toNat * 256 + y.toNat := by
  rw [BitVec.toNat_append, ← Nat.shiftLeft_add_eq_or_of_lt y.isLt, Nat.shiftLeft_eq]

/-- The word of a token: kind and data byte. -/
theorem token_word_toNat (k : BitVec 2) (x : Byte) : ((k ++ x).setWidth 48 : BitVec 48).toNat = k.toNat * 256 + x.toNat := by
  have := k.isLt
  have := x.isLt
  rw [BitVec.toNat_setWidth, append_byte_toNat]
  omega

theorem encode_start_toNat (w h : GeomWord) : (encode (.start w h)).word.toNat = w.toNat * 65536 + h.toNat := by
  have hw : w.toNat < 65536 := w.isLt
  have hh : h.toNat < 65536 := h.isLt
  show ((w ++ h).setWidth 48).toNat = _
  rw [BitVec.toNat_setWidth, BitVec.toNat_append, ← Nat.shiftLeft_add_eq_or_of_lt h.isLt, Nat.shiftLeft_eq]
  show (w.toNat * 65536 + h.toNat) % 281474976710656 = _
  omega

theorem encode_byte_toNat (b : Byte) : (encode (.byte b)).word.toNat = b.toNat := by
  have := b.isLt
  show (b.setWidth 48).toNat = _
  rw [BitVec.toNat_setWidth]
  omega

/-- The frame of a `BYTE` is that event. -/
theorem decodeEvent_encode_byte (b : Byte) : decodeEvent (encode (.byte b)) = .ok (.byte b) := by
  have hb := b.isLt
  have e := encode_byte_toNat b
  have hk : (encode (.byte b)).word.extractLsb' 8 2 = 0 := by
    apply BitVec.eq_of_toNat_eq
    rw [field_toNat, e]; simp; omega
  rw [decodeEvent_of_host rfl, decode_of_fits (by rw [e]; exact hb.trans (show 2 ^ 8 < 2 ^ 10 by decide))]
  show decodeToken _ = _
  simp only [decodeToken, hk, if_true]
  congr 2
  apply BitVec.eq_of_toNat_eq
  rw [field_toNat, e]; omega

theorem encode_mb4_toNat (y0 y1 y2 y3 cb cr : Byte) : (encode (.mb4 y0 y1 y2 y3 cb cr)).word.toNat =
    ((((y0.toNat * 256 + y1.toNat) * 256 + y2.toNat) * 256 + y3.toNat) * 256 + cb.toNat) * 256 + cr.toNat := by
  have := y0.isLt
  have := y1.isLt
  have := y2.isLt
  have := y3.isLt
  have := cb.isLt
  have := cr.isLt
  show ((y0 ++ y1 ++ y2 ++ y3 ++ cb ++ cr).setWidth 48).toNat = _
  rw [BitVec.toNat_setWidth]
  iterate 5 rw [append_byte_toNat]
  omega

theorem encode_rec601_toNat (y cb cr : Byte) :
    (encode (.rec601 y cb cr)).word.toNat = (y.toNat * 256 + cb.toNat) * 256 + cr.toNat := by
  have := y.isLt
  have := cb.isLt
  have := cr.isLt
  show ((y ++ cb ++ cr).setWidth 48).toNat = _
  rw [BitVec.toNat_setWidth, append_byte_toNat, append_byte_toNat]
  omega

theorem encode_rd_toNat {a : Nat} (h : a < 17179869184) : (encode (.rd a)).word.toNat = a := by
  show (BitVec.ofNat 48 a).toNat = _
  rw [BitVec.toNat_ofNat]
  omega

/-- The bytes of a number below `256^n` spell it. -/
theorem wordOfBytes_bytesOfWord (n x : Nat) (h : x < 256 ^ n) : wordOfBytes (bytesOfWord n x) = x := by
  induction n generalizing x with
  | zero => simp only [Nat.pow_zero] at h; simp only [bytesOfWord, wordOfBytes]; omega
  | succ n ih =>
    have hx : x / 256 < 256 ^ n := by rw [Nat.div_lt_iff_lt_mul (by omega)]; rw [Nat.pow_succ] at h; exact h
    simp only [bytesOfWord, wordOfBytes, ih _ hx, BitVec.toNat_ofNat]
    omega

theorem bytesOfWord_length (n x : Nat) : (bytesOfWord n x).length = n := by
  induction n generalizing x with
  | zero => rfl
  | succ n ih => simp only [bytesOfWord, List.length_cons, ih]

/-- Every port is found again from its format's length in bytes. -/
theorem Port.ofBytes_bits (p : Port) : Port.ofBytes ((p.bits + 7) / 8) = some p := by
  cases p <;> rfl

end Sys2Proof
end

