-- ==== Sys2Proof/Laws/Memory.lean ====
section
/-! SUPPORT. The raster as memory: what a read gives after a write, and that every write keeps the canonical form. -/

namespace Sys2Proof.Machine

@[simp] theorem Memory.read_nil (a : Nat) : Memory.read [] a = none := rfl

theorem Memory.read_cons (k : Nat) (v : Byte) (m : Memory) (a : Nat) :
    Memory.read ((k, v) :: m) a = if a = k then some v else Memory.read m a := rfl

/-- In canonical form the offsets below the first listed one hold no value. -/
theorem Memory.read_below {c : Host.Cell} {m : Memory} {a : Nat} (h : Memory.wf (c :: m) = true) (ha : a < c.1) :
    Memory.read (c :: m) a = none := by
  induction m generalizing c with
  | nil =>
    obtain ⟨k, v⟩ := c
    simp only [Memory.read_cons, Memory.read_nil]
    have : a ≠ k := by simp at ha; omega
    simp [this]
  | cons d m ih =>
    obtain ⟨k, v⟩ := c
    simp only [Memory.wf, Bool.and_eq_true, decide_eq_true_eq] at h ha ⊢
    rw [Memory.read_cons, if_neg (by omega)]
    exact ih h.2 (by omega)

/-- The tail of a canonical memory is canonical. -/
theorem Memory.wf_tail {c : Host.Cell} {m : Memory} (h : Memory.wf (c :: m) = true) : Memory.wf m = true := by
  cases m with
  | nil => rfl
  | cons d m => simp only [Memory.wf, Bool.and_eq_true] at h; exact h.2

/-- Read after write: the written offset reads as the written value, every other one as before. -/
theorem Memory.read_write (m : Memory) (a : Nat) (v : Byte) (b : Nat) :
    (Memory.write m a v).read b = if b = a then some v else m.read b := by
  induction m with
  | nil => rfl
  | cons c m ih =>
    obtain ⟨k, u⟩ := c
    simp only [Memory.write]
    split
    · rfl
    · split
      · subst k
        simp only [Memory.read_cons]
        split <;> rfl
      · simp only [Memory.read_cons, ih]
        split <;> split <;> first | rfl | omega

@[simp] theorem Memory.read_write_same (m : Memory) (a : Nat) (v : Byte) : (Memory.write m a v).read a = some v := by
  simp [Memory.read_write]

theorem Memory.read_write_other (m : Memory) {a b : Nat} (v : Byte) (h : b ≠ a) :
    (Memory.write m a v).read b = m.read b := by
  simp [Memory.read_write, h]

/-- A canonical list stays canonical when a smaller offset is put in front. -/
theorem Memory.wf_cons {c : Host.Cell} {m : Memory} (h : m.wf = true) (hc : ∀ d ∈ m.head?, c.1 < d.1) :
    Memory.wf (c :: m) = true := by
  cases m with
  | nil => rfl
  | cons d m => simp only [Memory.wf, Bool.and_eq_true, decide_eq_true_eq]; exact ⟨hc d rfl, h⟩

/-- A write at an offset keeps every bound below both the offset and the list. -/
theorem Memory.head_write {m : Memory} {k a : Nat} {v : Byte} (hk : k < a) (h : ∀ d ∈ m.head?, k < d.1) :
    ∀ d ∈ (Memory.write m a v).head?, k < d.1 := by
  cases m with
  | nil => intro d hd; cases hd; exact hk
  | cons c m =>
    obtain ⟨j, u⟩ := c
    have hj : k < j := h (j, u) rfl
    intro d hd
    simp only [Memory.write] at hd
    split at hd
    · cases hd; exact hk
    · split at hd <;> cases hd <;> assumption

/-- Every write keeps the canonical form. -/
theorem Memory.write_wf {m : Memory} (h : m.wf = true) (a : Nat) (v : Byte) : (Memory.write m a v).wf = true := by
  induction m with
  | nil => rfl
  | cons c m ih =>
    obtain ⟨k, u⟩ := c
    simp only [Memory.write]
    have hm := Memory.wf_tail h
    have hh : ∀ d ∈ m.head?, k < d.1 := by
      cases m with
      | nil => intro d hd; cases hd
      | cons d m =>
        intro e he; cases he
        simp only [Memory.wf, Bool.and_eq_true, decide_eq_true_eq] at h; exact h.1
    split
    · exact Memory.wf_cons h (by intro d hd; cases hd; assumption)
    · split
      · subst k; exact Memory.wf_cons hm hh
      · exact Memory.wf_cons (ih hm) (Memory.head_write (by omega) hh)

/-- Canonical memories that read the same everywhere are the same data. -/
theorem Memory.ext_of_wf {m m' : Memory} (h : m.wf = true) (h' : m'.wf = true) (e : ∀ a, m.read a = m'.read a) :
    m = m' := by
  induction m generalizing m' with
  | nil =>
    cases m' with
    | nil => rfl
    | cons c m' =>
      obtain ⟨j, w⟩ := c
      have := e j
      simp [Memory.read_cons] at this
  | cons c m ih =>
    obtain ⟨k, u⟩ := c
    cases m' with
    | nil => have := e k; simp [Memory.read_cons] at this
    | cons d m' =>
      obtain ⟨j, w⟩ := d
      have hkj : k = j := by
        rcases Nat.lt_trichotomy k j with hlt | heq | hgt
        · have h1 := e k
          rw [Memory.read_below h' hlt] at h1
          simp [Memory.read_cons] at h1
        · exact heq
        · have h1 := e j
          rw [Memory.read_below h hgt] at h1
          simp [Memory.read_cons] at h1
      subst hkj
      have huw : u = w := by have := e k; simpa [Memory.read_cons] using this
      subst huw
      congr 1
      refine ih (Memory.wf_tail h) (Memory.wf_tail h') fun a => ?_
      by_cases ha : a = k
      · subst ha
        have below : ∀ {n : Memory}, Memory.wf ((a, u) :: n) = true → n.read a = none := by
          intro n hn
          cases n with
          | nil => rfl
          | cons c n =>
            refine Memory.read_below (Memory.wf_tail hn) ?_
            simp only [Memory.wf, Bool.and_eq_true, decide_eq_true_eq] at hn; exact hn.1
        rw [below h, below h']
      · have := e a
        simpa [Memory.read_cons, ha] using this

end Sys2Proof.Machine
end

