-- ==== Sys2Proof/Laws/State.lean ====
section
/-! SUPPORT. One lemma per field and update of State, so that no later proof unfolds a record update. -/

namespace Sys2Proof.Machine

variable (s : State)

/-! ### writeMb -/

@[simp] theorem State.writeMb_mb (i : Fin 6) (v : Byte) : (s.writeMb i v).mb = s.mb.set i v := rfl
@[simp] theorem State.writeMb_phase (i : Fin 6) (v : Byte) : (s.writeMb i v).phase = s.phase := rfl
@[simp] theorem State.writeMb_mbi (i : Fin 6) (v : Byte) : (s.writeMb i v).mbi = s.mbi := rfl
@[simp] theorem State.writeMb_width (i : Fin 6) (v : Byte) : (s.writeMb i v).width = s.width := rfl
@[simp] theorem State.writeMb_height (i : Fin 6) (v : Byte) : (s.writeMb i v).height = s.height := rfl
@[simp] theorem State.writeMb_st (i : Fin 6) (v : Byte) : (s.writeMb i v).st = s.st := rfl
@[simp] theorem State.writeMb_err (i : Fin 6) (v : Byte) : (s.writeMb i v).err = s.err := rfl
@[simp] theorem State.writeMb_raster (i : Fin 6) (v : Byte) : (s.writeMb i v).raster = s.raster := rfl
@[simp] theorem State.writeMb_env (i : Fin 6) (v : Byte) : (s.writeMb i v).env = s.env := rfl
@[simp] theorem State.writeMb_npix (i : Fin 6) (v : Byte) : (s.writeMb i v).npix = s.npix := rfl
@[simp] theorem State.writeMb_cap (i : Fin 6) (v : Byte) : (s.writeMb i v).cap = s.cap := rfl
@[simp] theorem State.writeMb_consumed (i : Fin 6) (v : Byte) : (s.writeMb i v).consumed = s.consumed := rfl
@[simp] theorem State.writeMb_hasRoom (i : Fin 6) (v : Byte) : (s.writeMb i v).hasRoom = s.hasRoom := rfl

/-! ### setPos -/

@[simp] theorem State.setPos_mb (k : IndexWord) (p : Fin 6) : (s.setPos k p).mb = s.mb := rfl
@[simp] theorem State.setPos_phase (k : IndexWord) (p : Fin 6) : (s.setPos k p).phase = p := rfl
@[simp] theorem State.setPos_mbi (k : IndexWord) (p : Fin 6) : (s.setPos k p).mbi = k := rfl
@[simp] theorem State.setPos_width (k : IndexWord) (p : Fin 6) : (s.setPos k p).width = s.width := rfl
@[simp] theorem State.setPos_height (k : IndexWord) (p : Fin 6) : (s.setPos k p).height = s.height := rfl
@[simp] theorem State.setPos_st (k : IndexWord) (p : Fin 6) : (s.setPos k p).st = s.st := rfl
@[simp] theorem State.setPos_err (k : IndexWord) (p : Fin 6) : (s.setPos k p).err = s.err := rfl
@[simp] theorem State.setPos_raster (k : IndexWord) (p : Fin 6) : (s.setPos k p).raster = s.raster := rfl
@[simp] theorem State.setPos_env (k : IndexWord) (p : Fin 6) : (s.setPos k p).env = s.env := rfl
@[simp] theorem State.setPos_npix (k : IndexWord) (p : Fin 6) : (s.setPos k p).npix = s.npix := rfl
@[simp] theorem State.setPos_cap (k : IndexWord) (p : Fin 6) : (s.setPos k p).cap = s.cap := rfl

/-! ### setSt -/

@[simp] theorem State.setSt_mb (c : Ctrl) : (s.setSt c).mb = s.mb := rfl
@[simp] theorem State.setSt_phase (c : Ctrl) : (s.setSt c).phase = s.phase := rfl
@[simp] theorem State.setSt_mbi (c : Ctrl) : (s.setSt c).mbi = s.mbi := rfl
@[simp] theorem State.setSt_width (c : Ctrl) : (s.setSt c).width = s.width := rfl
@[simp] theorem State.setSt_height (c : Ctrl) : (s.setSt c).height = s.height := rfl
@[simp] theorem State.setSt_st (c : Ctrl) : (s.setSt c).st = c := rfl
@[simp] theorem State.setSt_err (c : Ctrl) : (s.setSt c).err = s.err := rfl
@[simp] theorem State.setSt_raster (c : Ctrl) : (s.setSt c).raster = s.raster := rfl
@[simp] theorem State.setSt_env (c : Ctrl) : (s.setSt c).env = s.env := rfl
@[simp] theorem State.setSt_npix (c : Ctrl) : (s.setSt c).npix = s.npix := rfl
@[simp] theorem State.setSt_cap (c : Ctrl) : (s.setSt c).cap = s.cap := rfl
@[simp] theorem State.setSt_consumed (c : Ctrl) : (s.setSt c).consumed = s.consumed := rfl
@[simp] theorem State.setSt_hasRoom (c : Ctrl) : (s.setSt c).hasRoom = s.hasRoom := rfl

/-! ### setRaster -/

@[simp] theorem State.setRaster_mb (m : Memory) : (s.setRaster m).mb = s.mb := rfl
@[simp] theorem State.setRaster_phase (m : Memory) : (s.setRaster m).phase = s.phase := rfl
@[simp] theorem State.setRaster_mbi (m : Memory) : (s.setRaster m).mbi = s.mbi := rfl
@[simp] theorem State.setRaster_width (m : Memory) : (s.setRaster m).width = s.width := rfl
@[simp] theorem State.setRaster_height (m : Memory) : (s.setRaster m).height = s.height := rfl
@[simp] theorem State.setRaster_st (m : Memory) : (s.setRaster m).st = s.st := rfl
@[simp] theorem State.setRaster_err (m : Memory) : (s.setRaster m).err = s.err := rfl
@[simp] theorem State.setRaster_raster (m : Memory) : (s.setRaster m).raster = m := rfl
@[simp] theorem State.setRaster_env (m : Memory) : (s.setRaster m).env = s.env := rfl
@[simp] theorem State.setRaster_npix (m : Memory) : (s.setRaster m).npix = s.npix := rfl
@[simp] theorem State.setRaster_cap (m : Memory) : (s.setRaster m).cap = s.cap := rfl
@[simp] theorem State.setRaster_consumed (m : Memory) : (s.setRaster m).consumed = s.consumed := rfl
@[simp] theorem State.setRaster_hasRoom (m : Memory) : (s.setRaster m).hasRoom = s.hasRoom := rfl

/-! ### setOffers -/

@[simp] theorem State.setOffers_mb (fs : List Frame) : (s.setOffers fs).mb = s.mb := rfl
@[simp] theorem State.setOffers_phase (fs : List Frame) : (s.setOffers fs).phase = s.phase := rfl
@[simp] theorem State.setOffers_mbi (fs : List Frame) : (s.setOffers fs).mbi = s.mbi := rfl
@[simp] theorem State.setOffers_width (fs : List Frame) : (s.setOffers fs).width = s.width := rfl
@[simp] theorem State.setOffers_height (fs : List Frame) : (s.setOffers fs).height = s.height := rfl
@[simp] theorem State.setOffers_st (fs : List Frame) : (s.setOffers fs).st = s.st := rfl
@[simp] theorem State.setOffers_err (fs : List Frame) : (s.setOffers fs).err = s.err := rfl
@[simp] theorem State.setOffers_raster (fs : List Frame) : (s.setOffers fs).raster = s.raster := rfl
@[simp] theorem State.setOffers_env (fs : List Frame) : (s.setOffers fs).env = { s.env with offers := fs } := rfl
@[simp] theorem State.setOffers_npix (fs : List Frame) : (s.setOffers fs).npix = s.npix := rfl
@[simp] theorem State.setOffers_cap (fs : List Frame) : (s.setOffers fs).cap = s.cap := rfl
@[simp] theorem State.setOffers_consumed (fs : List Frame) : (s.setOffers fs).consumed = s.consumed := rfl
@[simp] theorem State.setOffers_hasRoom (fs : List Frame) : (s.setOffers fs).hasRoom = s.hasRoom := rfl

/-! ### leaveToken -/

@[simp] theorem State.leaveToken_mb (t : Token) : (s.leaveToken t).mb = s.mb := rfl
@[simp] theorem State.leaveToken_phase (t : Token) : (s.leaveToken t).phase = s.phase := rfl
@[simp] theorem State.leaveToken_mbi (t : Token) : (s.leaveToken t).mbi = s.mbi := rfl
@[simp] theorem State.leaveToken_width (t : Token) : (s.leaveToken t).width = s.width := rfl
@[simp] theorem State.leaveToken_height (t : Token) : (s.leaveToken t).height = s.height := rfl
@[simp] theorem State.leaveToken_st (t : Token) : (s.leaveToken t).st = s.st := rfl
@[simp] theorem State.leaveToken_err (t : Token) : (s.leaveToken t).err = s.err := rfl
@[simp] theorem State.leaveToken_raster (t : Token) : (s.leaveToken t).raster = s.raster := rfl
@[simp] theorem State.leaveToken_env (t : Token) : (s.leaveToken t).env = { s.env with untaken := s.env.untaken ++ [t] } := rfl
@[simp] theorem State.leaveToken_npix (t : Token) : (s.leaveToken t).npix = s.npix := rfl
@[simp] theorem State.leaveToken_cap (t : Token) : (s.leaveToken t).cap = s.cap := rfl
@[simp] theorem State.leaveToken_consumed (t : Token) : (s.leaveToken t).consumed = s.consumed := rfl
@[simp] theorem State.leaveToken_hasRoom (t : Token) : (s.leaveToken t).hasRoom = s.hasRoom := rfl

/-! ### handBack -/

@[simp] theorem State.handBack_mb (v : Handed) : (s.handBack v).mb = s.mb := rfl
@[simp] theorem State.handBack_phase (v : Handed) : (s.handBack v).phase = s.phase := rfl
@[simp] theorem State.handBack_mbi (v : Handed) : (s.handBack v).mbi = s.mbi := rfl
@[simp] theorem State.handBack_width (v : Handed) : (s.handBack v).width = s.width := rfl
@[simp] theorem State.handBack_height (v : Handed) : (s.handBack v).height = s.height := rfl
@[simp] theorem State.handBack_st (v : Handed) : (s.handBack v).st = s.st := rfl
@[simp] theorem State.handBack_err (v : Handed) : (s.handBack v).err = s.err := rfl
@[simp] theorem State.handBack_raster (v : Handed) : (s.handBack v).raster = s.raster := rfl
@[simp] theorem State.handBack_env (v : Handed) : (s.handBack v).env = { s.env with handed := v } := rfl
@[simp] theorem State.handBack_npix (v : Handed) : (s.handBack v).npix = s.npix := rfl
@[simp] theorem State.handBack_cap (v : Handed) : (s.handBack v).cap = s.cap := rfl
@[simp] theorem State.handBack_consumed (v : Handed) : (s.handBack v).consumed = s.consumed := rfl
@[simp] theorem State.handBack_hasRoom (v : Handed) : (s.handBack v).hasRoom = s.hasRoom := rfl

/-! ### present -/

@[simp] theorem State.present_mb (f : Frame) : (s.present f).mb = s.mb := rfl
@[simp] theorem State.present_phase (f : Frame) : (s.present f).phase = s.phase := rfl
@[simp] theorem State.present_mbi (f : Frame) : (s.present f).mbi = s.mbi := rfl
@[simp] theorem State.present_width (f : Frame) : (s.present f).width = s.width := rfl
@[simp] theorem State.present_height (f : Frame) : (s.present f).height = s.height := rfl
@[simp] theorem State.present_st (f : Frame) : (s.present f).st = s.st := rfl
@[simp] theorem State.present_err (f : Frame) : (s.present f).err = s.err := rfl
@[simp] theorem State.present_raster (f : Frame) : (s.present f).raster = s.raster := rfl
@[simp] theorem State.present_env (f : Frame) : (s.present f).env = { s.env with offers := f :: s.env.offers } := rfl
@[simp] theorem State.present_npix (f : Frame) : (s.present f).npix = s.npix := rfl
@[simp] theorem State.present_cap (f : Frame) : (s.present f).cap = s.cap := rfl
@[simp] theorem State.present_consumed (f : Frame) : (s.present f).consumed = s.consumed := rfl
@[simp] theorem State.present_hasRoom (f : Frame) : (s.present f).hasRoom = s.hasRoom := rfl

/-! ### beforeLastByte -/

@[simp] theorem State.beforeLastByte_mb (q : Macroblock) : (s.beforeLastByte q).mb = { q with cr := s.inRunWithRoom.mb.cr } := rfl
@[simp] theorem State.beforeLastByte_phase (q : Macroblock) : (s.beforeLastByte q).phase = 5 := rfl
@[simp] theorem State.beforeLastByte_mbi (q : Macroblock) : (s.beforeLastByte q).mbi = s.inRunWithRoom.mbi := rfl
@[simp] theorem State.beforeLastByte_width (q : Macroblock) : (s.beforeLastByte q).width = s.inRunWithRoom.width := rfl
@[simp] theorem State.beforeLastByte_height (q : Macroblock) : (s.beforeLastByte q).height = s.inRunWithRoom.height := rfl
@[simp] theorem State.beforeLastByte_st (q : Macroblock) : (s.beforeLastByte q).st = s.inRunWithRoom.st := rfl
@[simp] theorem State.beforeLastByte_err (q : Macroblock) : (s.beforeLastByte q).err = s.inRunWithRoom.err := rfl
@[simp] theorem State.beforeLastByte_raster (q : Macroblock) : (s.beforeLastByte q).raster = s.inRunWithRoom.raster := rfl
@[simp] theorem State.beforeLastByte_env (q : Macroblock) : (s.beforeLastByte q).env =
    { s.inRunWithRoom.env with offers := encode (.byte q.cr) :: s.inRunWithRoom.env.offers } := rfl

/-! ### beginRun -/

@[simp] theorem State.beginRun_mb (w h : GeomWord) : (s.beginRun w h).mb = s.mb := rfl
@[simp] theorem State.beginRun_phase (w h : GeomWord) : (s.beginRun w h).phase = 0 := rfl
@[simp] theorem State.beginRun_mbi (w h : GeomWord) : (s.beginRun w h).mbi = 0 := rfl
@[simp] theorem State.beginRun_width (w h : GeomWord) : (s.beginRun w h).width = w := rfl
@[simp] theorem State.beginRun_height (w h : GeomWord) : (s.beginRun w h).height = h := rfl
@[simp] theorem State.beginRun_st (w h : GeomWord) : (s.beginRun w h).st = .run := rfl
@[simp] theorem State.beginRun_err (w h : GeomWord) : (s.beginRun w h).err = .noError := rfl
@[simp] theorem State.beginRun_raster (w h : GeomWord) : (s.beginRun w h).raster = s.raster := rfl
@[simp] theorem State.beginRun_env (w h : GeomWord) : (s.beginRun w h).env = s.env := rfl

/-! ### raise -/

@[simp] theorem State.raise_mb (e : ErrKind) : (s.raise e).mb = s.mb := rfl
@[simp] theorem State.raise_phase (e : ErrKind) : (s.raise e).phase = s.phase := rfl
@[simp] theorem State.raise_mbi (e : ErrKind) : (s.raise e).mbi = s.mbi := rfl
@[simp] theorem State.raise_width (e : ErrKind) : (s.raise e).width = s.width := rfl
@[simp] theorem State.raise_height (e : ErrKind) : (s.raise e).height = s.height := rfl
@[simp] theorem State.raise_st (e : ErrKind) : (s.raise e).st = .err := rfl
@[simp] theorem State.raise_err (e : ErrKind) : (s.raise e).err = e := rfl
@[simp] theorem State.raise_raster (e : ErrKind) : (s.raise e).raster = s.raster := rfl
@[simp] theorem State.raise_env (e : ErrKind) : (s.raise e).env = s.env := rfl
@[simp] theorem State.raise_npix (e : ErrKind) : (s.raise e).npix = s.npix := rfl
@[simp] theorem State.raise_cap (e : ErrKind) : (s.raise e).cap = s.cap := rfl
@[simp] theorem State.raise_consumed (e : ErrKind) : (s.raise e).consumed = s.consumed := rfl
@[simp] theorem State.raise_hasRoom (e : ErrKind) : (s.raise e).hasRoom = s.hasRoom := rfl

/-! ### forceReset -/

@[simp] theorem State.forceReset_mb : s.forceReset.mb = ⟨0, 0, 0, 0, 0, 0⟩ := rfl
@[simp] theorem State.forceReset_phase : s.forceReset.phase = 0 := rfl
@[simp] theorem State.forceReset_mbi : s.forceReset.mbi = 0 := rfl
@[simp] theorem State.forceReset_width : s.forceReset.width = 0 := rfl
@[simp] theorem State.forceReset_height : s.forceReset.height = 0 := rfl
@[simp] theorem State.forceReset_st : s.forceReset.st = .idle := rfl
@[simp] theorem State.forceReset_err : s.forceReset.err = .noError := rfl
@[simp] theorem State.forceReset_raster : s.forceReset.raster = [] := rfl
@[simp] theorem State.forceReset_env : s.forceReset.env = s.env := rfl

/-! ### reset -/

@[simp] theorem State.reset_mb : State.reset.mb = ⟨0, 0, 0, 0, 0, 0⟩ := rfl
@[simp] theorem State.reset_phase : State.reset.phase = 0 := rfl
@[simp] theorem State.reset_mbi : State.reset.mbi = 0 := rfl
@[simp] theorem State.reset_width : State.reset.width = 0 := rfl
@[simp] theorem State.reset_height : State.reset.height = 0 := rfl
@[simp] theorem State.reset_st : State.reset.st = .idle := rfl
@[simp] theorem State.reset_err : State.reset.err = .noError := rfl
@[simp] theorem State.reset_raster : State.reset.raster = [] := rfl
@[simp] theorem State.reset_env : State.reset.env = ⟨[], [], .nothing⟩ := rfl

/-! ### views -/

@[simp] theorem State.cap_eq : s.cap = 3 * s.npix := rfl

theorem State.consumed_eq : s.consumed = 6 * s.mbi.toNat + s.phase.val := rfl

theorem State.hasRoom_iff : s.hasRoom = true ↔ 4 * (s.mbi.toNat + 1) ≤ s.npix := by
  simp [State.hasRoom]

theorem State.hasRoom_false_iff : s.hasRoom = false ↔ s.npix < 4 * (s.mbi.toNat + 1) := by
  simp [State.hasRoom]

/-- No raster has as many as `2^32` pixels, so `MBI` cannot wrap while there is room (10_state.md R14). -/
theorem State.npix_lt : s.npix < 2 ^ 32 := by
  have hw := s.width.isLt
  have hh := s.height.isLt
  have : s.width.toNat * s.height.toNat < 2 ^ 16 * 2 ^ 16 := Nat.mul_lt_mul'' hw hh
  exact this

/-- `STATUS[1:0]` is the code of `ST` (10_state.md R18). -/
theorem State.status_low : s.status.extractLsb' 0 2 = s.st.code :=
  (by decide : ∀ a b : BitVec 2, (a ++ b).extractLsb' 0 2 = b) s.err.code s.st.code

/-- `STATUS[3:2]` is the code of `ERR` (R19). -/
theorem State.status_high : s.status.extractLsb' 2 2 = s.err.code :=
  (by decide : ∀ a b : BitVec 2, (a ++ b).extractLsb' 2 2 = a) s.err.code s.st.code

end Sys2Proof.Machine
end

