-- ==== Sys2Proof/Laws/Raster.lean ====
section
/-! SUPPORT. What the writes of `MB4` do to the raster, said once. -/

namespace Sys2Proof.Machine

/-- The byte that `MB4` writes at distance `d` from its write pointer: channel `d mod 3` of lane `d div 3`. -/
def macroblockByte (q : Macroblock) (d : Nat) : Byte :=
  (lanePixel q (Fin.ofNat 4 (d / 3))).channel (Fin.ofNat 3 d)

/-- The offset of channel `c` of lane `i`, with the write pointer written out (20_memory.md R35). -/
theorem laneOffset_eq (k : Nat) (i : Fin 4) (c : Fin 3) : laneOffset k i c = 12 * k + 3 * i.val + c.val := rfl

/-- A lane's three bytes read as its pixel's channels. -/
theorem writeLane_read_inside (k : Nat) (i : Fin 4) (x : Pixel) (m : Memory) (c : Fin 3) :
    (writeLane k i x m).read (laneOffset k i c) = some (x.channel c) := by
  have h0 : laneOffset k i 0 = 12 * k + 3 * i.val := rfl
  have h1 : laneOffset k i 1 = 12 * k + 3 * i.val + 1 := rfl
  have h2 : laneOffset k i 2 = 12 * k + 3 * i.val + 2 := rfl
  simp only [writeLane, Memory.read_write, h0, h1, h2]
  fin_cases c <;> simp [h0, h1, h2]

/-- Every byte that is not one of the lane's three reads as before. -/
theorem writeLane_read_outside (k : Nat) (i : Fin 4) (x : Pixel) (m : Memory) (a : Nat)
    (h : a < 12 * k + 3 * i.val ∨ 12 * k + 3 * i.val + 3 ≤ a) : (writeLane k i x m).read a = m.read a := by
  have h0 : laneOffset k i 0 = 12 * k + 3 * i.val := rfl
  have h1 : laneOffset k i 1 = 12 * k + 3 * i.val + 1 := rfl
  have h2 : laneOffset k i 2 = 12 * k + 3 * i.val + 2 := rfl
  rw [writeLane, Memory.read_write_other _ _ (by omega), Memory.read_write_other _ _ (by omega),
    Memory.read_write_other _ _ (by omega)]

/-- A lane keeps the canonical form. -/
theorem writeLane_wf {m : Memory} (h : m.wf = true) (k : Nat) (i : Fin 4) (x : Pixel) : (writeLane k i x m).wf = true :=
  Memory.write_wf (Memory.write_wf (Memory.write_wf h _ _) _ _) _ _

/-- The byte of lane `i` and channel `c` after `MB4` is that channel of that lane's pixel (41_sequencer.md R94). -/
theorem writeMacroblock_read_lane (k : Nat) (q : Macroblock) (m : Memory) (i : Fin 4) (c : Fin 3) :
    (writeMacroblock k q m).read (laneOffset k i c) = some ((lanePixel q i).channel c) := by
  have hc := c.isLt
  have e (j : Fin 4) : laneOffset k j c = 12 * k + 3 * j.val + c.val := rfl
  have v1 : (1 : Fin 4).val = 1 := rfl
  have v2 : (2 : Fin 4).val = 2 := rfl
  have v3 : (3 : Fin 4).val = 3 := rfl
  unfold writeMacroblock
  match i with
  | 0 =>
    rw [writeLane_read_outside, writeLane_read_outside, writeLane_read_outside, writeLane_read_inside]
    all_goals rw [e 0]; simp only [v1, v2, v3, Fin.val_zero]; omega
  | 1 =>
    rw [writeLane_read_outside, writeLane_read_outside, writeLane_read_inside]
    all_goals rw [e 1]; simp only [v1, v2, v3]; omega
  | 2 =>
    rw [writeLane_read_outside, writeLane_read_inside]
    all_goals rw [e 2]; simp only [v2, v3]; omega
  | 3 => rw [writeLane_read_inside]

/-- Every byte of the macroblock's range reads as the macroblock's byte. -/
theorem writeMacroblock_read_inside (k : Nat) (q : Macroblock) (m : Memory) (d : Nat) (h : d < 12) :
    (writeMacroblock k q m).read (12 * k + d) = some (macroblockByte q d) := by
  have := writeMacroblock_read_lane k q m (Fin.ofNat 4 (d / 3)) (Fin.ofNat 3 d)
  have e : laneOffset k (Fin.ofNat 4 (d / 3)) (Fin.ofNat 3 d) = 12 * k + d := by
    rw [laneOffset_eq, Fin.val_ofNat, Fin.val_ofNat]
    omega
  rwa [e] at this

/-- Every other byte reads as before. -/
theorem writeMacroblock_read_outside (k : Nat) (q : Macroblock) (m : Memory) (a : Nat)
    (h : a < writePointer k ∨ writePointer k + 12 ≤ a) : (writeMacroblock k q m).read a = m.read a := by
  have v1 : (1 : Fin 4).val = 1 := rfl
  have v2 : (2 : Fin 4).val = 2 := rfl
  have v3 : (3 : Fin 4).val = 3 := rfl
  simp only [writePointer] at h
  rw [writeMacroblock, writeLane_read_outside, writeLane_read_outside, writeLane_read_outside, writeLane_read_outside]
  all_goals simp only [v1, v2, v3, Fin.val_zero]; omega

/-- `MB4` keeps the canonical form. -/
theorem writeMacroblock_wf {m : Memory} (h : m.wf = true) (k : Nat) (q : Macroblock) :
    (writeMacroblock k q m).wf = true :=
  writeLane_wf (writeLane_wf (writeLane_wf (writeLane_wf h _ _ _) _ _ _) _ _ _) _ _ _

/-- All that `emitMacroblock` can do: the twelve writes where the raster has room for them, a fault elsewhere. -/
theorem emitMacroblock_cases (q : Macroblock) (s : State) :
    (12 * s.mbi.toNat + 11 < s.cap ∧ emitMacroblock q s = .next (s.setRaster (writeMacroblock s.mbi.toNat q s.raster))) ∨
    (s.cap ≤ 12 * s.mbi.toNat + 11 ∧ emitMacroblock q s = .fault .rasterOutOfRange) := by
  unfold emitMacroblock writePointer
  split
  · exact .inl ⟨‹_›, rfl⟩
  · exact .inr ⟨by omega, rfl⟩

/-- The room test of `BYTE` is the bound of `MB4`: `4*(MBI+1) <= NPIX` exactly when `12*MBI + 11 < CAP`. -/
theorem hasRoom_iff_fits (s : State) : s.hasRoom = true ↔ 12 * s.mbi.toNat + 11 < s.cap := by
  rw [State.hasRoom_iff, State.cap_eq]
  omega

/-- With room, the twelve bytes are written. -/
theorem emitMacroblock_of_room {s : State} (q : Macroblock) (h : s.hasRoom = true) :
    emitMacroblock q s = .next (s.setRaster (writeMacroblock s.mbi.toNat q s.raster)) := by
  rcases emitMacroblock_cases q s with ⟨_, e⟩ | ⟨hc, _⟩
  · exact e
  · have := (hasRoom_iff_fits s).mp h
    omega

/-- `MBI` does not wrap while there is room. -/
theorem mbi_succ_toNat {s : State} (h : s.hasRoom = true) : (s.mbi + 1).toNat = s.mbi.toNat + 1 := by
  have h1 := State.hasRoom_iff s |>.mp h
  have h2 := s.npix_lt
  rw [BitVec.toNat_add]
  have : (1 : IndexWord).toNat = 1 := rfl
  rw [this]
  exact Nat.mod_eq_of_lt (show s.mbi.toNat + 1 < 2 ^ 32 by omega)

end Sys2Proof.Machine
end

