-- ==== Sys2Proof/Laws/Registers.lean ====
section
/-! SUPPORT. The register file `MB[0..5]`: what a register reads after a write. -/

namespace Sys2Proof

@[simp] theorem Macroblock.get_set (m : Macroblock) (i j : Fin 6) (v : Byte) :
    (m.set i v).get j = if j = i then v else m.get j := by
  fin_cases i <;> fin_cases j <;> rfl

/-- Two macroblocks with the same six registers are the same. -/
theorem Macroblock.ext_get {m n : Macroblock} (h : ∀ j, m.get j = n.get j) : m = n := by
  rcases m with ⟨a0, a1, a2, a3, a4, a5⟩
  rcases n with ⟨b0, b1, b2, b3, b4, b5⟩
  have h0 : a0 = b0 := h 0
  have h1 : a1 = b1 := h 1
  have h2 : a2 = b2 := h 2
  have h3 : a3 = b3 := h 3
  have h4 : a4 = b4 := h 4
  have h5 : a5 = b5 := h 5
  subst h0 h1 h2 h3 h4 h5
  rfl

/-- Lane `i` takes register `MB[i]`. -/
theorem Macroblock.luma_eq_get (m : Macroblock) (i : Fin 4) : m.luma i = m.get (i.castLE (by decide)) := by
  fin_cases i <;> rfl

end Sys2Proof
end

