-- ==== Sys2Proof/Laws/Meanings.lean ====
section
/-! SUPPORT. Everything each meaning can do, said once; later proofs cite these and never unfold a meaning. -/

namespace Sys2Proof.Machine

@[simp] theorem onNext_next (s : State) (k) : onNext (.next s) k = k s := rfl

@[simp] theorem onNext_fault (r : Fault) (k) : onNext (.fault r) k = .fault r := rfl

@[simp] theorem onNext_refused (r : Refusal) (k) : onNext (.refused r) k = .refused r := rfl

/-- A byte in `RUN` is one of four things: the first excess byte, a byte of an unfinished macroblock, the sixth byte, or
a sixth byte for which the raster has no room (which no reached state has). -/
theorem takeByte_cases (b : Byte) (s : State) :
    (s.phase = 0 ∧ s.hasRoom = false ∧ takeByte b s = .next (s.raise .truncatedInput)) ∨
    (s.phase ≠ 5 ∧ (s.phase = 0 → s.hasRoom = true) ∧
      takeByte b s = .next ((s.writeMb s.phase b).setPos s.mbi (s.phase + 1))) ∨
    (s.phase = 5 ∧ s.hasRoom = true ∧
      takeByte b s = .next (((s.writeMb 5 b).setRaster (writeMacroblock s.mbi.toNat (s.mb.set 5 b) s.raster)).setPos (s.mbi + 1) 0)) ∨
    (s.phase = 5 ∧ s.hasRoom = false ∧ takeByte b s = .fault .rasterOutOfRange) := by
  unfold takeByte
  split
  · rename_i h; exact .inl ⟨h.1, h.2, rfl⟩
  · rename_i h0
    split
    · rename_i h5
      right; right
      rcases emitMacroblock_cases (s.mb.set 5 b) (s.writeMb 5 b) with ⟨hc, e⟩ | ⟨hc, e⟩
      · left
        refine ⟨h5, (hasRoom_iff_fits s).mpr hc, ?_⟩
        rw [e]; rfl
      · right
        refine ⟨h5, ?_, by rw [e]; rfl⟩
        rw [Bool.eq_false_iff]
        intro hr
        have h1 := (hasRoom_iff_fits s).mp hr
        have h2 : s.cap ≤ 12 * s.mbi.toNat + 11 := hc
        omega
    · rename_i h5
      refine .inr (.inl ⟨h5, fun hz => ?_, rfl⟩)
      by_contra hr
      exact h0 ⟨hz, by simpa using hr⟩

/-- `END` in `RUN` closes a full raster and is an error on any other. -/
theorem takeEnd_cases (s : State) :
    (s.phase = 0 ∧ 4 * s.mbi.toNat = s.npix ∧ takeEnd s = s.setSt .done) ∨
    ((s.phase ≠ 0 ∨ 4 * s.mbi.toNat ≠ s.npix) ∧ takeEnd s = s.raise .truncatedInput) := by
  unfold takeEnd
  split
  · exact .inr ⟨.inl ‹_›, rfl⟩
  · split
    · exact .inr ⟨.inr ‹_›, rfl⟩
    · exact .inl ⟨by simp_all, by simp_all, rfl⟩

/-- Everything an operation that answers a next state has done. -/
theorem exec_next_cases {i : Instr} {s t : State} (h : exec i s = .next t) :
    (i = .reset ∧ t = s.forceReset) ∨
    (∃ w g, i = .start w g ∧ s.st = .idle ∧ t = s.beginRun w g) ∨
    (∃ w g, i = .start w g ∧ s.st ≠ .idle ∧ t = s) ∨
    (∃ k, i = Token.toInstr k ∧ s.st ≠ .run ∧ t = s.leaveToken k) ∨
    (∃ b, i = .byte b ∧ s.st = .run ∧ s.phase = 0 ∧ s.hasRoom = false ∧ t = s.raise .truncatedInput) ∨
    (∃ b, i = .byte b ∧ s.st = .run ∧ s.phase ≠ 5 ∧ (s.phase = 0 → s.hasRoom = true) ∧
      t = (s.writeMb s.phase b).setPos s.mbi (s.phase + 1)) ∨
    (∃ b, i = .byte b ∧ s.st = .run ∧ s.phase = 5 ∧ s.hasRoom = true ∧
      t = ((s.writeMb 5 b).setRaster (writeMacroblock s.mbi.toNat (s.mb.set 5 b) s.raster)).setPos (s.mbi + 1) 0) ∨
    (i = .endTok ∧ s.st = .run ∧ s.phase = 0 ∧ 4 * s.mbi.toNat = s.npix ∧ t = s.setSt .done) ∨
    (i = .endTok ∧ s.st = .run ∧ (s.phase ≠ 0 ∨ 4 * s.mbi.toNat ≠ s.npix) ∧ t = s.raise .truncatedInput) ∨
    (i = .fail ∧ s.st = .run ∧ t = s.raise .unreadableSource) ∨
    (∃ y0 y1 y2 y3 cb cr, i = .mb4 y0 y1 y2 y3 cb cr ∧ s.st = .run ∧ s.hasRoom = true ∧
      t = s.setRaster (writeMacroblock s.mbi.toNat ⟨y0, y1, y2, y3, cb, cr⟩ s.raster)) ∨
    (∃ y cb cr, i = .rec601 y cb cr ∧ t = s.handBack (.pixel (rec601 y cb cr))) ∨
    (∃ a v, i = .rd a ∧ s.st = .done ∧ a < s.cap ∧ s.raster.read a = some v ∧ t = s.handBack (.byte v)) := by
  cases i with
  | reset => cases h; exact .inl ⟨rfl, rfl⟩
  | start w g =>
    simp only [exec, execStart] at h
    split at h <;> cases h
    · exact .inr (.inl ⟨w, g, rfl, ‹_›, rfl⟩)
    · exact .inr (.inr (.inl ⟨w, g, rfl, ‹_›, rfl⟩))
  | byte b =>
    simp only [exec, execByte] at h
    split at h
    · rename_i hr
      rcases takeByte_cases b s with ⟨h0, h1, e⟩ | ⟨h0, h1, e⟩ | ⟨h0, h1, e⟩ | ⟨h0, h1, e⟩ <;> rw [e] at h <;> cases h
      · exact .inr (.inr (.inr (.inr (.inl ⟨b, rfl, hr, h0, h1, rfl⟩))))
      · exact .inr (.inr (.inr (.inr (.inr (.inl ⟨b, rfl, hr, h0, h1, rfl⟩)))))
      · exact .inr (.inr (.inr (.inr (.inr (.inr (.inl ⟨b, rfl, hr, h0, h1, rfl⟩))))))
    · cases h; exact .inr (.inr (.inr (.inl ⟨.byte b, rfl, ‹_›, rfl⟩)))
  | endTok =>
    simp only [exec, execEnd] at h
    split at h <;> cases h
    · rename_i hr
      rcases takeEnd_cases s with ⟨h0, h1, e⟩ | ⟨h0, e⟩ <;> rw [e]
      · exact .inr (.inr (.inr (.inr (.inr (.inr (.inr (.inl ⟨rfl, hr, h0, h1, rfl⟩)))))))
      · exact .inr (.inr (.inr (.inr (.inr (.inr (.inr (.inr (.inl ⟨rfl, hr, h0, rfl⟩))))))))
    · exact .inr (.inr (.inr (.inl ⟨.endTok, rfl, ‹_›, rfl⟩)))
  | fail =>
    simp only [exec, execFail] at h
    split at h <;> cases h
    · exact .inr (.inr (.inr (.inr (.inr (.inr (.inr (.inr (.inr (.inl ⟨rfl, ‹_›, rfl⟩)))))))))
    · exact .inr (.inr (.inr (.inl ⟨.fail, rfl, ‹_›, rfl⟩)))
  | mb4 y0 y1 y2 y3 cb cr =>
    simp only [exec, execMb4] at h
    split at h
    · rename_i hr
      rcases emitMacroblock_cases ⟨y0, y1, y2, y3, cb, cr⟩ s with ⟨hc, e⟩ | ⟨_, e⟩ <;> rw [e] at h <;> cases h
      exact .inr (.inr (.inr (.inr (.inr (.inr (.inr (.inr (.inr (.inr (.inl
        ⟨y0, y1, y2, y3, cb, cr, rfl, hr, (hasRoom_iff_fits s).mpr hc, rfl⟩))))))))))
    · cases h
  | rec601 y cb cr =>
    cases h
    exact .inr (.inr (.inr (.inr (.inr (.inr (.inr (.inr (.inr (.inr (.inr (.inl ⟨y, cb, cr, rfl, rfl⟩)))))))))))
  | rd a =>
    simp only [exec, execRd] at h
    split at h
    · rename_i he
      have hd : s.st = .done ∧ a < s.cap := of_decide_eq_true he
      split at h <;> cases h
      exact .inr (.inr (.inr (.inr (.inr (.inr (.inr (.inr (.inr (.inr (.inr (.inr
        ⟨a, _, rfl, hd.1, hd.2, ‹_›, rfl⟩)))))))))))
    · cases h

/-- With nothing on offer the machine holds. -/
theorem step_nothing {s : State} (h : s.env.offers = []) : step s = .next s := by
  simp [step, State.fetch, h]

/-- An event is run by `exec`, on the state without it. -/
theorem step_decoded {s : State} {f : Frame} {fs : List Frame} {i : Instr} (h : s.env.offers = f :: fs)
    (hd : decodeEvent f = .ok i) : step s = settleRead (s.setOffers fs) (exec i (s.setOffers fs)) := by
  simp [step, State.fetch, h, hd]

/-- A frame that is no event is refused. -/
theorem step_undecodable {s : State} {f : Frame} {fs : List Frame} {r : Reject} (h : s.env.offers = f :: fs)
    (hd : decodeEvent f = .error r) : step s = .refused (.undecodable r) := by
  simp [step, State.fetch, h, hd]

/-- Everything a step that answers a next state has done. -/
theorem step_next_cases {s t : State} (h : step s = .next t) :
    (s.env.offers = [] ∧ t = s) ∨
    ∃ f fs i, s.env.offers = f :: fs ∧ decodeEvent f = .ok i ∧
      (exec i (s.setOffers fs) = .next t ∨
        (exec i (s.setOffers fs) = .refused .readNotEnabled ∧ t = (s.setOffers fs).handBack .refused)) := by
  cases ho : s.env.offers with
  | nil => rw [step_nothing ho] at h; cases h; exact .inl ⟨rfl, rfl⟩
  | cons f fs =>
    right
    cases hd : decodeEvent f with
    | error r => rw [step_undecodable ho hd] at h; cases h
    | ok i =>
      rw [step_decoded ho hd] at h
      refine ⟨f, fs, i, rfl, hd, ?_⟩
      unfold settleRead at h
      split at h
      · cases h; exact .inr ⟨‹_›, rfl⟩
      · exact .inl h

/-- `inRunWithRoom` gives a run that has room. -/
theorem inRunWithRoom_spec (s : State) : s.inRunWithRoom.st = .run ∧ s.inRunWithRoom.hasRoom = true := by
  unfold State.inRunWithRoom
  split
  · assumption
  · exact ⟨rfl, rfl⟩

/-- `MB4` in a run with room: its twelve writes. -/
theorem exec_mb4_of_room {s : State} {y0 y1 y2 y3 cb cr : Byte} (hr : s.st = .run) (hm : s.hasRoom = true) :
    exec (.mb4 y0 y1 y2 y3 cb cr) s =
      .next (s.setRaster (writeMacroblock s.mbi.toNat ⟨y0, y1, y2, y3, cb, cr⟩ s.raster)) := by
  simp only [exec, execMb4, hr, if_true, emitMacroblock_of_room _ hm]

/-- The sixth byte in a run with room: the register, the twelve writes, the position. -/
theorem exec_sixth_byte_of_room {s : State} {b : Byte} (hr : s.st = .run) (h5 : s.phase = 5) (hm : s.hasRoom = true) :
    exec (.byte b) s =
      .next (((s.writeMb 5 b).setRaster (writeMacroblock s.mbi.toNat (s.mb.set 5 b) s.raster)).setPos (s.mbi + 1) 0) := by
  have hw : (s.writeMb 5 b).hasRoom = true := hm
  simp [exec, execByte, hr, takeByte, h5, hm, emitMacroblock_of_room _ hw]

/-- The step from `beforeLastByte q` is a `BYTE` that performs `MB4` on `q`, and then moves the position. -/
theorem step_beforeLastByte (s : State) (q : Macroblock) :
    step (s.beforeLastByte q) =
      onNext (exec (.mb4 q.y0 q.y1 q.y2 q.y3 q.cb q.cr) { s.inRunWithRoom with mb := q, phase := 5 }) fun t =>
        .next (t.setPos (s.inRunWithRoom.mbi + 1) 0) := by
  obtain ⟨hr, hm⟩ := inRunWithRoom_spec s
  rw [step_decoded (s := s.beforeLastByte q) rfl (decodeEvent_encode_byte q.cr),
    exec_sixth_byte_of_room (s := (s.beforeLastByte q).setOffers s.inRunWithRoom.env.offers) hr rfl hm,
    exec_mb4_of_room (s := { s.inRunWithRoom with mb := q, phase := 5 }) hr hm]
  rfl

end Sys2Proof.Machine
end

