-- ==== Sys2Proof/Laws/PerInstr.lean ====
section
/-! SUPPORT. Facts about every operation as syntax, one lemma per constructor of `Instr`. -/

namespace Sys2Proof.Laws.EncodedWord

/-- The encoded word has no bit above the width of its port's format (30_encoding.md R50). -/
def Statement (i : Instr) : Prop := WellFormed i → (encode i).word.toNat < 2 ^ (encode i).port.bits

theorem reset : Statement .reset := fun _ => by decide

theorem start (w h : GeomWord) : Statement (.start w h) := fun _ => by
  have hw : w.toNat < 65536 := w.isLt
  have hh : h.toNat < 65536 := h.isLt
  rw [encode_start_toNat]
  show _ < 4294967296
  omega

theorem byte (b : Byte) : Statement (.byte b) := fun _ => by
  have := b.isLt
  rw [encode_byte_toNat]
  show _ < 1024
  omega

theorem endTok : Statement .endTok := fun _ => by decide

theorem fail : Statement .fail := fun _ => by decide

theorem mb4 (y0 y1 y2 y3 cb cr : Byte) : Statement (.mb4 y0 y1 y2 y3 cb cr) := fun _ =>
  (encode (.mb4 y0 y1 y2 y3 cb cr)).word.isLt

theorem rec601 (y cb cr : Byte) : Statement (.rec601 y cb cr) := fun _ => by
  have := y.isLt
  have := cb.isLt
  have := cr.isLt
  rw [encode_rec601_toNat]
  show _ < 16777216
  omega

theorem rd (a : Nat) : Statement (.rd a) := fun h => by
  have ha := wellFormed_rd.mp h
  rw [encode_rd_toNat ha]
  exact ha

end Sys2Proof.Laws.EncodedWord
end

