-- ==== Sys2Proof/Laws/Runs.lean ====
section
/-! SUPPORT. Runs of several steps: how they are put together, that they are the host's runs, and what a run of tokens
does once none is taken. -/

namespace Sys2Proof.Machine

@[simp] theorem runSteps_zero (s : State) : runSteps 0 s = .next s := rfl

theorem runSteps_succ {s t : State} (n : Nat) (h : step s = .next t) : runSteps (n + 1) s = runSteps n t := by
  simp [runSteps, h]

theorem runSteps_add (m n : Nat) (s : State) : runSteps (m + n) s = onNext (runSteps m s) (runSteps n) := by
  induction m generalizing s with
  | zero => simp
  | succ m ih =>
    rw [Nat.succ_add]
    simp only [runSteps]
    cases step s with
    | next t => simp [ih]
    | fault r => rfl
    | refused r => rfl

/-- `runSteps` is the host's own run of the machine. -/
theorem runSteps_eq_core_run (n : Nat) (s : State) : runSteps n s = Host.Core.run core n s := by
  induction n generalizing s with
  | zero => rfl
  | succ n ih =>
    simp only [runSteps, Host.Core.run, show core.step s = step s from rfl]
    cases step s with
    | next t => exact ih t
    | fault r => rfl
    | refused r => rfl

/-- Every token has an encoding. -/
theorem wellFormed_token (k : Token) : WellFormed k.toInstr := by cases k <;> rfl

/-- A token that is not taken stays with the host's source. -/
theorem exec_token_outside_run (k : Token) {s : State} (h : s.st ≠ .run) : exec k.toInstr s = .next (s.leaveToken k) := by
  cases k <;> simp [Token.toInstr, exec, execByte, execEnd, execFail, h]

end Sys2Proof.Machine
end

