-- ==== Sys2Proof/Tests/Slice0.lean ====
section
/-! SUPPORT. The model's own tests. Expected values come from the spec: words from 30_encoding.md, results from
95_test_vectors.md (the row is named). Then, for every statement with hypotheses, a witness that they can be met. -/

namespace Sys2Proof.Tests

open Sys2Proof.Machine

/-! ## Well-formedness -/

theorem test_wellFormed_refuses_an_offset_of_35_bits : ¬WellFormed (.rd 0x400000000) := by decide

theorem test_wellFormed_takes_the_greatest_offset : WellFormed (.rd 0x3FFFFFFFF) := by decide

/-! ## Decoding, words written from the spec's formats -/

/-- R60: the reset input asserted. -/
theorem test_decode_reset : decodeTableWord 1 1 = some .reset := by decide

/-- R54: the reference geometry; the width stands in the high half. -/
theorem test_decode_start : decodeTableWord 32 0x00400030 = some (.start 64 48) := by decide

/-- R53: kind 00, data `1000_0001`. -/
theorem test_decode_byte : decodeTableWord 10 0b0010000001 = some (.byte 129) := by decide

/-- R53: kind 01, data ignored. -/
theorem test_decode_end : decodeTableWord 10 0b0100000000 = some .endTok ∧ decodeTableWord 10 0b0111111111 = some .endTok := by
  decide

/-- R53: kind 10, data ignored. -/
theorem test_decode_fail : decodeTableWord 10 0b1000000000 = some .fail ∧ decodeTableWord 10 0b1001010101 = some .fail := by
  decide

/-- R62: kind 11 is reserved. -/
theorem test_decode_reserved : decodeTableWord 10 0b1100000000 = none := by decide

/-- R51, program P1: the first byte on the wire is the most significant. -/
theorem test_decode_mb4 : decodeTableWord 48 0x7800FF808133 = some (.mb4 120 0 255 128 129 51) := by decide

/-- R56, row S1. -/
theorem test_decode_rec601 : decodeTableWord 24 0x788133 = some (.rec601 120 129 51) := by decide

/-- R55: the last offset of the reference raster, and the greatest offset of the format. -/
theorem test_decode_rd : decodeTableWord 34 9215 = some (.rd 9215) ∧ decodeTableWord 34 0x3FFFFFFFF = some (.rd 17179869183) := by
  decide

/-- The model's own rejections (log 11). -/
theorem test_decode_rejects_by_name :
    decodeBytes [0x00, 0x04] = .error .strayBits ∧ decodeBytes [0] = .error .resetNotAsserted ∧
    decodeBytes [0, 0, 0, 0, 4] = .error .strayBits ∧ decodeBytes [] = .error .badLength ∧
    decodeBytes [0, 0, 0, 0, 0, 0, 0] = .error .badLength ∧ decode ⟨.stream, 0x300⟩ = .error .reservedTokenKind := by
  decide

/-- R65, R66: the events of the lines of program P1. -/
theorem test_lines_of_a_macroblock :
    (scriptFrames (.comment "P1" :: mbLines ⟨120, 0, 255, 128, 129, 51⟩)).map Frame.word = [0x078, 0x000, 0x0FF, 0x080, 0x081, 0x033] ∧
    (zerosLines 3).length = 3 ∧ Line.text (.start 64 48) = "START 64 48" := by
  decide

/-! ## One step each -/

/-- A state of the block with the given control part, `MB` all zero, nothing in the raster, nothing on offer. -/
def blockAt (st : Ctrl) (err : ErrKind) (mbi : IndexWord) (phase : Fin 6) (w h : GeomWord) : State :=
  { State.reset with st := st, err := err, mbi := mbi, phase := phase, width := w, height := h }

/-- The next state, if there is one. -/
def nextOf (o : Host.Outcome State Fault Refusal) : Option State :=
  match o with
  | .next s => some s
  | .fault _ => none
  | .refused _ => none

/-- What rows Q1 to Q25 show of a state: `STATUS`, position, geometry. -/
def shown (s : State) : BitVec 4 × IndexWord × Fin 6 × GeomWord × GeomWord := (s.status, s.mbi, s.phase, s.width, s.height)

/-- The twelve raster bytes of macroblock `k`. -/
def twelve (k : Nat) (s : State) : List (Option Byte) := (List.range 12).map fun d => s.raster.read (12 * k + d)

/-- Row Q20. -/
theorem test_reset_leaves_err :
    (nextOf (exec .reset (blockAt .err .unreadableSource 0 3 4 1))).map shown = some (0b0000, 0, 0, 0, 0) := by decide

/-- Row Q21. -/
theorem test_reset_abandons_a_run :
    (nextOf (exec .reset (blockAt .run .noError 5 2 64 48))).map shown = some (0b0000, 0, 0, 0, 0) := by decide

/-- Row Q1. -/
theorem test_start_in_idle : (nextOf (exec (.start 64 48) State.reset)).map shown = some (0b0001, 0, 0, 64, 48) := by decide

/-- Row Q2. -/
theorem test_start_ignored_in_run :
    (nextOf (exec (.start 4 1) (blockAt .run .noError 3 2 64 48))).map shown = some (0b0001, 3, 2, 64, 48) := by decide

/-- Row Q7: the sixth byte emits; the bytes are those of the first row of section 2.5. -/
theorem test_sixth_byte_emits :
    let o := nextOf (exec (.byte 51) { blockAt .run .noError 0 5 4 1 with mb := ⟨120, 0, 255, 128, 129, 7⟩ })
    o.map shown = some (0b0001, 1, 0, 4, 1) ∧ o.map (fun t => t.mb.cr) = some 51 ∧
    o.map (twelve 0) = some [some 12, some 174, some 121, some 0, some 54, some 1, some 147, some 255, some 255,
        some 20, some 182, some 129] := by decide

/-- Row Q8: the first excess byte, which is not stored. -/
theorem test_excess_byte :
    (nextOf (exec (.byte 9) { blockAt .run .noError 1 0 4 1 with mb := ⟨1, 2, 3, 4, 5, 6⟩ })).map (fun t => (shown t, t.mb.y0)) =
      some ((0b0111, 1, 0, 4, 1), 1) := by decide

/-- Row Q10. -/
theorem test_end_clean : (nextOf (exec .endTok (blockAt .run .noError 1 0 4 1))).map shown = some (0b0010, 1, 0, 4, 1) := by decide

/-- Row Q13: on a boundary, too few macroblocks. -/
theorem test_end_too_few : (nextOf (exec .endTok (blockAt .run .noError 1 0 4 2))).map shown = some (0b0111, 1, 0, 4, 2) := by decide

/-- Row Q17: after the raster is full, still not `DONE` and not truncated. -/
theorem test_fail_after_a_full_raster :
    (nextOf (exec .fail (blockAt .run .noError 1 0 4 1))).map shown = some (0b1011, 1, 0, 4, 1) := by decide

/-- Row Q19: the first error is final, and the token stays with the host. -/
theorem test_fail_not_taken_in_err :
    (nextOf (exec .fail (blockAt .err .truncatedInput 0 5 4 1))).map (fun t => (shown t, t.env.untaken)) =
      some ((0b0111, 0, 5, 4, 1), [.fail]) := by decide

/-- Section 2.5, second row: macroblock 2 lies at offsets 24 to 35. -/
theorem test_mb4_at_index_2 :
    (nextOf (exec (.mb4 120 0 255 128 129 51) (blockAt .run .noError 2 0 64 48))).map
        (fun t => (twelve 2 t, t.raster.read 23, t.raster.read 36, t.mbi)) =
      some ([some 12, some 174, some 121, some 0, some 54, some 1, some 147, some 255, some 255, some 20, some 182, some 129],
        none, none, 2) := by decide

/-- Section 2.5, fourth row. -/
theorem test_mb4_saturating_lanes :
    (nextOf (exec (.mb4 255 0 200 37 28 228) (blockAt .run .noError 1 0 4 2))).map (twelve 1) =
      some [some 255, some 218, some 77, some 140, some 0, some 0, some 255, some 163, some 22, some 177, some 0, some 0] := by
  decide

/-- Row S1, and not the false variants: rounding gives `(12, 175, 122)`, a factor on red `(9, 174, 121)`. -/
theorem test_rec601_fixture :
    (nextOf (exec (.rec601 120 129 51) State.reset)).map (fun t => t.env.handed) = some (.pixel ⟨12, 174, 121⟩) := by decide

/-- Section 2.3: the clamp is of the full-width quotient (blue 480, not 224; red -180, not 76); green 63 where binary64 gives 62. -/
theorem test_rec601_clamps_before_narrowing :
    rec601 255 255 255 = ⟨255, 120, 255⟩ ∧ rec601 0 0 0 = ⟨0, 135, 0⟩ ∧ rec601 100 28 228 = ⟨240, 63, 0⟩ := by decide

/-- Row Q22. -/
theorem test_rd_in_done :
    (nextOf (exec (.rd 1) { blockAt .done .noError 1 0 4 1 with raster := [(0, 12), (1, 174), (2, 121)] })).map
        (fun t => (shown t, t.env.handed)) = some ((0b0010, 1, 0, 4, 1), .byte 174) := by decide

/-- Row Q23: `a = CAP` is refused; `step` goes on and nothing is handed back (program P10). -/
theorem test_rd_at_cap :
    exec (.rd 12) (blockAt .done .noError 1 0 4 1) = .refused .readNotEnabled ∧
    (nextOf (step ((blockAt .done .noError 1 0 4 1).withFetchWord 34 12))).map (fun t => (shown t, t.env.handed)) =
      some ((0b0010, 1, 0, 4, 1), .refused) := ⟨rfl, by decide⟩

/-- The step fetches the event on offer and takes it off. -/
theorem test_step_from_reset :
    (nextOf (step (State.reset.withFetchWord 32 0x00400030))).map (fun t => (shown t, t.env.offers)) =
      some ((0b0001, 0, 0, 64, 48), []) := by decide

/-- `MB4` and `REC601` are no events: offered as such they are refused, and the state `withFetchWord` gives performs them
inside a `BYTE`. The bytes are those of the first row of section 2.5 and of row S1, once per lane. -/
theorem test_internal_operations_run_inside_a_byte :
    step (State.reset.setOffers [encode (.rec601 120 129 51)]) = .refused (.undecodable .internalPort) ∧
    (nextOf (step (State.reset.withFetchWord 48 0x7800FF808133))).map (twelve 0) =
      some [some 12, some 174, some 121, some 0, some 54, some 1, some 147, some 255, some 255, some 20, some 182, some 129] ∧
    (nextOf (step (State.reset.withFetchWord 24 0x788133))).map (twelve 0) =
      some [some 12, some 174, some 121, some 12, some 174, some 121, some 12, some 174, some 121, some 12, some 174, some 121] :=
  ⟨rfl, by decide, by decide⟩

/-- Section 2.1, in the bit form of R58. -/
theorem test_debias :
    [0, 1, 28, 51, 127, 128, 129, 228, 254, 255].map debias = [-128, -127, -100, -77, -1, 0, 1, 100, 126, 127] := by decide

/-! ## Witnesses: the hypotheses of the statements can be met

Each is named after its statement; boundary values of the clauses stand side by side. -/

theorem witness_DecodeOfEncodeIsTheOperation : WellFormed (.rd 17179869183) ∧ WellFormed (.mb4 1 2 3 4 5 6) := by decide

theorem witness_EncodeOfDecodeIsTheFrame :
    decode ⟨.stream, 0x1FF⟩ = .ok .endTok ∧ decode ⟨.raster, 0x3FFFFFFFF⟩ = .ok (.rd 17179869183) := by decide

theorem witness_ByteStringsRoundTrip : WellFormed (.rd 17179869183) ∧ WellFormed .reset := by decide

theorem witness_FormatFieldsStandWhereTheSpecPutsThem :
    (0 : Nat) < 2 ^ 34 ∧ 2 ^ 34 - 1 < 2 ^ 34 ∧ Token.byte 255 = .byte 255 ∧ Token.endTok = .endTok ∧ Token.fail = .fail := by decide

theorem witness_ReservedTokenKindIsRefused :
    ((blockAt .run .noError 0 0 4 1).setOffers [⟨.stream, (0b11#2 ++ (255 : Byte)).setWidth 48⟩]).env.offers =
      ⟨.stream, (0b11#2 ++ (255 : Byte)).setWidth 48⟩ :: [] := by decide

theorem witness_GreenNumeratorAndItsExactValues :
    (100000 : Int) ∣ numGreen 36 28 228 ∧ (100000 : Int) ∣ numGreen 0 128 128 ∧ (100000 : Int) ∣ numGreen 255 228 28 := by decide

theorem witness_AccumulatorOf27BitsNeverOverflows : 27 ≤ 27 ∧ 27 ≤ Config.accBits := by decide

theorem witness_AccumulatorDatapathEqualsRec601 : 27 ≤ 27 ∧ 27 ≤ Config.accBits := by decide

theorem witness_StartBeginsARunOnlyInIdle : State.reset.st = .idle ∧ (blockAt .run .noError 3 2 64 48).st ≠ .idle := by decide

/-- Phase 0 with room for exactly one more macroblock, and phase 4. -/
theorem witness_ByteOfAnUnfinishedMacroblockIsStored :
    let s := blockAt .run .noError 767 0 64 48
    let u := blockAt .run .noError 0 4 4 1
    s.st = .run ∧ s.phase ≠ 5 ∧ (s.phase = 0 → 4 * (s.mbi.toNat + 1) ≤ s.npix) ∧
    u.st = .run ∧ u.phase ≠ 5 ∧ (u.phase = 0 → 4 * (u.mbi.toNat + 1) ≤ u.npix) := by decide

theorem witness_SixthByteEmitsTheMacroblock :
    let s := blockAt .run .noError 767 5 64 48
    s.st = .run ∧ s.phase = 5 ∧ 4 * (s.mbi.toNat + 1) ≤ s.npix := by decide

/-- Rows Q8 and Q9. -/
theorem witness_ByteBeyondTheRasterIsTruncatedInput :
    let s := blockAt .run .noError 1 0 4 1
    let u := blockAt .run .noError 0 0 2 1
    s.st = .run ∧ s.phase = 0 ∧ s.npix < 4 * (s.mbi.toNat + 1) ∧ u.st = .run ∧ u.phase = 0 ∧ u.npix < 4 * (u.mbi.toNat + 1) := by
  decide

theorem witness_SixthBytePerformsMb4 :
    (blockAt .run .noError 0 5 4 1).st = .run ∧ (blockAt .run .noError 0 5 4 1).phase = 5 := by decide

theorem witness_Mb4WritesTheTwelveBytes :
    let s := blockAt .run .noError 767 5 64 48
    s.st = .run ∧ 4 * (s.mbi.toNat + 1) ≤ s.npix := by decide

/-- Outside a run; in a run, three pixels where four are needed. -/
theorem witness_Mb4StopsOutsideARunAndOutsideTheRaster :
    let s := blockAt .run .noError 0 0 3 1
    State.reset.st ≠ .run ∧ s.st = .run ∧ s.cap < 12 * s.mbi.toNat + 12 := by decide

/-- Rows Q10, Q12 and Q13, and a step that enters `DONE`. -/
theorem witness_EndClosesExactlyAFullRaster :
    let s := blockAt .run .noError 1 0 4 1
    let u := blockAt .run .noError 0 1 4 1
    let v := blockAt .run .noError 1 0 4 2
    (s.st = .run ∧ s.phase = 0 ∧ 4 * s.mbi.toNat = s.npix ∧ u.st = .run ∧ u.phase ≠ 0 ∧
      v.st = .run ∧ v.phase = 0 ∧ 4 * v.mbi.toNat ≠ v.npix) ∧
    ∃ t, exec .endTok s = .next t ∧ t.st = .done ∧ s.st ≠ .done := ⟨by decide, _, rfl, by decide⟩

theorem witness_FailIsUnreadableSourceAtAnyPosition : (blockAt .run .noError 0 3 4 1).st = .run := by decide

theorem witness_TokensAreTakenOnlyInRun :
    State.reset.st ≠ .run ∧ ∃ t, (blockAt .run .noError 0 3 4 1).st = .run ∧
      exec Token.fail.toInstr (blockAt .run .noError 0 3 4 1) = .next t := ⟨by decide, _, rfl, rfl⟩

/-- The last byte of a raster and the first offset beyond it; outside `DONE`. -/
theorem witness_ReadReturnsTheRasterByteOnlyInDone :
    let s : State := { blockAt .done .noError 1 0 4 1 with raster := [(11, 129)] }
    (s.st = .done ∧ 11 < s.cap ∧ s.raster.read 11 = some 129) ∧ ¬(s.st = .done ∧ 12 < s.cap) ∧
    ¬((blockAt .err .truncatedInput 1 0 4 2).st = .done ∧ 0 < (blockAt .err .truncatedInput 1 0 4 2).cap) := by decide

/-- A raster of grey, as program P10 leaves it. -/
def greyRaster : Memory :=
  [(0, 10), (1, 10), (2, 10), (3, 20), (4, 20), (5, 20), (6, 30), (7, 30), (8, 30), (9, 40), (10, 40), (11, 40)]

/-- The end state of program P10. -/
def greyDone : State := { blockAt .done .noError 1 0 4 1 with raster := greyRaster }

theorem greyRaster_read_beyond {a : Nat} (h : 12 ≤ a) : greyRaster.read a = none := by
  have ne : ∀ k, k < 12 → a ≠ k := fun k hk => by omega
  simp [greyRaster, Memory.read, ne]

theorem greyDone_invariant : MachineInvariant greyDone where
  errExact := by decide
  bounded := by decide
  idleClean := by decide
  doneExact := by decide
  rasterWf := by decide
  rasterWritten := by decide
  rasterBounded _ h := greyRaster_read_beyond h

/-- The invariant of a state of a run with nothing in the raster. -/
theorem blockAt_invariant {st : Ctrl} {err : ErrKind} {phase : Fin 6} {w h : GeomWord} (e : err ≠ .noError ↔ st = .err)
    (b : phase.val ≤ 6 * (npixOf w h / 4)) (hi : st ≠ .idle) (hd : st ≠ .done) : MachineInvariant (blockAt st err 0 phase w h) where
  errExact := e
  bounded := by simpa [State.consumed, blockAt, State.npix] using b
  idleClean c := absurd c hi
  doneExact c := absurd c hd
  rasterWf := rfl
  rasterWritten a c := absurd c (by simp [blockAt, writePointer])
  rasterBounded _ _ := rfl

theorem witness_EveryByteOfADoneRasterCanBeRead :
    MachineInvariant greyDone ∧ greyDone.st = .done ∧ 0 < greyDone.cap ∧ 11 < greyDone.cap :=
  ⟨greyDone_invariant, by decide⟩

theorem witness_ReadIsIdempotent : ∃ t, exec (.rd 11) greyDone = .next t ∧ t.env.handed = .byte 40 := ⟨_, rfl, by decide⟩

/-- An enabled read, a refused one, a frame that does not decode, and a frame for a place inside the block. -/
theorem witness_StepRunsTheDecodedOperation :
    (greyDone.setOffers [⟨.raster, 4⟩]).env.offers = ⟨.raster, 4⟩ :: [] ∧ decode ⟨.raster, 4⟩ = .ok (.rd 4) ∧
    exec (.rd 4) greyDone = .next (greyDone.handBack (.byte 20)) ∧
    exec (.rd 12) greyDone = .refused .readNotEnabled ∧ decode ⟨.stream, 0x300⟩ = .error .reservedTokenKind ∧
    Port.raster.hostVisible = true ∧ Port.lanes.hostVisible = false ∧ Port.converter.hostVisible = false :=
  ⟨by decide, by decide, rfl, rfl, by decide⟩

theorem witness_NothingOnOfferIsAHold : State.reset.env.offers = [] ∧ (blockAt .run .noError 0 2 4 1).env.offers = [] := by decide

theorem witness_RefusedReadLeavesTheBlockAlone :
    let s := greyDone.setOffers [encode (.rd 12), encode .reset]
    12 < 2 ^ 34 ∧ s.env.offers = encode (.rd 12) :: [encode .reset] ∧ ¬(s.st = .done ∧ 12 < s.cap) := by decide

theorem reset_invariant_with_a_start_on_offer : MachineInvariant (State.reset.setOffers [encode (.start 64 48)]) where
  errExact := by decide
  bounded := by decide
  idleClean := by decide
  doneExact := by decide
  rasterWf := rfl
  rasterWritten a c := absurd c (by simp [State.reset, State.setOffers, writePointer])
  rasterBounded _ _ := rfl

theorem witness_EveryStepKeepsTheInvariant :
    ∃ t, MachineInvariant (State.reset.setOffers [encode (.start 64 48)]) ∧
      step (State.reset.setOffers [encode (.start 64 48)]) = .next t ∧ t.st = .run :=
  ⟨_, reset_invariant_with_a_start_on_offer, rfl, by decide⟩

/-- The invariant speaks of the block alone. -/
theorem invariant_whatever_is_offered {s : State} (h : MachineInvariant s) (fs : List Frame) : MachineInvariant (s.setOffers fs) :=
  ⟨h.errExact, h.bounded, h.idleClean, h.doneExact, h.rasterWf, h.rasterWritten, h.rasterBounded⟩

/-- A `START` in `IDLE`, a read that is not enabled, and a token outside `RUN`. -/
theorem witness_EveryHostEventTakesAStep :
    (let s := State.reset.setOffers [encode (.start 64 48)];
      MachineInvariant s ∧ s.env.offers = encode (.start 64 48) :: [] ∧ (encode (.start 64 48)).port.hostVisible = true ∧
        decode (encode (.start 64 48)) = .ok (.start 64 48)) ∧
    (let s := greyDone.setOffers [encode (.rd 12)];
      MachineInvariant s ∧ ¬(s.st = .done ∧ 12 < s.cap) ∧ decode (encode (.rd 12)) = .ok (.rd 12) ∧
        (encode (.rd 12)).port.hostVisible = true) ∧
    (let s := greyDone.setOffers [Token.fail.frame];
      MachineInvariant s ∧ s.st ≠ .run ∧ decode Token.fail.frame = .ok .fail ∧ Token.fail.frame.port.hostVisible = true) :=
  ⟨⟨reset_invariant_with_a_start_on_offer, by decide⟩, ⟨invariant_whatever_is_offered greyDone_invariant _, by decide⟩,
    ⟨invariant_whatever_is_offered greyDone_invariant _, by decide⟩⟩

/-- The three causes of `TruncatedInput` and the one of `UnreadableSource`. -/
theorem witness_ErrorsAreRaisedExactlyInTheirCases :
    (∃ t, exec .endTok (blockAt .run .noError 0 5 4 1) = .next t ∧ t.err = .truncatedInput) ∧
    (∃ t, exec .endTok (blockAt .run .noError 1 0 4 2) = .next t ∧ t.err = .truncatedInput) ∧
    (∃ t, exec (.byte 9) (blockAt .run .noError 1 0 4 1) = .next t ∧ t.err = .truncatedInput) ∧
    (∃ t, exec .fail (blockAt .run .noError 0 3 4 1) = .next t ∧ t.err = .unreadableSource) ∧
    (blockAt .run .noError 0 5 4 1).st ≠ .err :=
  ⟨⟨_, rfl, by decide⟩, ⟨_, rfl, by decide⟩, ⟨_, rfl, by decide⟩, ⟨_, rfl, by decide⟩, by decide⟩

theorem witness_RaisingAnErrorWritesOnlyStatus :
    ∃ t, (blockAt .run .noError 1 0 4 1).st ≠ .err ∧ exec (.byte 9) (blockAt .run .noError 1 0 4 1) = .next t ∧ t.st = .err :=
  ⟨_, by decide, rfl, by decide⟩

/-- Each of the four changes of `ST`. -/
theorem witness_ControlStateFollowsTheTransitionTable :
    (∃ t, exec .reset greyDone = .next t ∧ t.st ≠ greyDone.st) ∧
    (∃ t, exec (.start 4 1) State.reset = .next t ∧ t.st ≠ State.reset.st) ∧
    (∃ t, exec .endTok (blockAt .run .noError 1 0 4 1) = .next t ∧ t.st ≠ .run) ∧
    (∃ t, exec .fail (blockAt .run .noError 0 0 4 1) = .next t ∧ t.st ≠ .run) :=
  ⟨⟨_, rfl, by decide⟩, ⟨_, rfl, by decide⟩, ⟨_, rfl, by decide⟩, ⟨_, rfl, by decide⟩⟩

theorem witness_OnlyResetLeavesAnEndedRun :
    ∃ t, greyDone.ended ∧ exec (.start 8 8) greyDone = .next t ∧ Instr.start 8 8 ≠ .reset :=
  ⟨_, Or.inl rfl, rfl, by decide⟩

/-- An accepted byte in mid-macroblock and the last one, a reset, and an operation that moves nothing. -/
theorem witness_PositionMovesOnlyForward :
    (∃ t, exec (.byte 1) (blockAt .run .noError 0 4 4 1) = .next t ∧ t.st = .run ∧ t.consumed = 5) ∧
    (∃ t, exec (.byte 1) (blockAt .run .noError 0 5 4 1) = .next t ∧ t.st = .run ∧ t.consumed = 6) ∧
    (∃ t, exec .reset (blockAt .run .noError 0 4 4 1) = .next t ∧ t.consumed = 0) ∧
    (∃ t, exec .fail (blockAt .run .noError 0 4 4 1) = .next t ∧ t.consumed = 4) :=
  ⟨⟨_, rfl, by decide⟩, ⟨_, rfl, by decide⟩, ⟨_, rfl, by decide⟩, ⟨_, rfl, by decide⟩⟩

theorem witness_GeometryHoldsDuringARun :
    (∃ t, exec (.start 8 8) (blockAt .run .noError 0 0 4 1) = .next t ∧ t.width = 4) ∧
    (∃ t, exec (.start 8 8) State.reset = .next t ∧ t.width = 8) :=
  ⟨⟨_, rfl, by decide⟩, ⟨_, rfl, by decide⟩⟩

theorem witness_RegistersAreWrittenOnlyByTheirByte :
    ∃ t, exec (.byte 129) (blockAt .run .noError 0 4 4 1) = .next t ∧ t.mb.get 4 ≠ (blockAt .run .noError 0 4 4 1).mb.get 4 :=
  ⟨_, rfl, by decide⟩

theorem witness_RasterIsWrittenOnlyByMb4 :
    (∃ t, exec (.byte 128) (blockAt .run .noError 0 5 4 1) = .next t ∧ t.raster.read 11 ≠ none) ∧
    (∃ t, exec .reset greyDone = .next t ∧ t.raster.read 11 ≠ greyDone.raster.read 11) :=
  ⟨⟨_, rfl, by decide⟩, ⟨_, rfl, by decide⟩⟩

theorem witness_EnvironmentChangesOnlyByUntakenTokensAndResults :
    (∃ t, exec (.byte 5) State.reset = .next t ∧ t.env.untaken = [.byte 5]) ∧
    (∃ t, exec (.rd 4) greyDone = .next t ∧ t.env.handed = .byte 20) :=
  ⟨⟨_, rfl, by decide⟩, ⟨_, rfl, by decide⟩⟩

theorem witness_NoByteValueSteersAStep :
    SameControl (blockAt .run .noError 0 5 4 1) { blockAt .run .noError 0 5 4 1 with mb := ⟨1, 2, 3, 4, 5, 6⟩ } :=
  ⟨rfl, rfl, rfl, rfl, rfl, rfl⟩

theorem witness_StatusHasTheSpecsCodes :
    MachineInvariant (blockAt .err .truncatedInput 0 5 4 1) ∧ MachineInvariant (blockAt .run .noError 0 5 4 1) :=
  ⟨blockAt_invariant (by decide) (by decide) (by decide) (by decide),
    blockAt_invariant (by decide) (by decide) (by decide) (by decide)⟩

theorem witness_FourPixelsOfAMacroblockLieInOneRow : 0 < 64 ∧ 64 % 4 = 0 ∧ 0 < 4 ∧ 4 % 4 = 0 := by decide

theorem witness_MacroblockAndLaneWritesCommute :
    (0 : Nat) ≠ 1 ∧ greyRaster.wf = true ∧ (0 : Fin 4) ≠ 3 := by decide

theorem witness_SixBytesAreOneMacroblock :
    let q : Macroblock := ⟨120, 0, 255, 128, 129, 51⟩
    let s := (blockAt .run .noError 0 0 4 1).setOffers (scriptFrames (mbLines q) ++ [encode .endTok])
    s.st = .run ∧ s.phase = 0 ∧ 4 * (s.mbi.toNat + 1) ≤ s.npix ∧
      s.env.offers = scriptFrames (mbLines q) ++ [encode .endTok] := by decide

/-- Both sides of the closed form: six bytes for four pixels; three bytes for two pixels, where `n = w*h*3/2` but
`w*h mod 4` is not 0; no byte for no pixel. -/
theorem witness_DecodeInClosedForm :
    (2 * [120, 0, 255, 128, 129, 51].length = 3 * 4 ∧ 4 % 4 = 0) ∧ (2 * 0 = 3 * 0 ∧ 0 % 4 = 0) ∧
    ¬(2 * 3 = 3 * 2 ∧ 2 % 4 = 0) ∧ ¬(2 * 5 = 3 * 4 ∧ 4 % 4 = 0) := by decide

theorem witness_ValidStreamIsReadBackConverted :
    2 * ([120, 0, 255, 128, 129, 51] : List Byte).length = 3 * ((4 : GeomWord).toNat * (1 : GeomWord).toNat) ∧
      (4 : GeomWord).toNat * (1 : GeomWord).toNat % 4 = 0 := by decide

/-- Fewer tokens than the bound, more, and a geometry without a valid stream. -/
theorem witness_ARunIsBounded :
    6 * (npixOf 4 1 / 4) < (List.replicate 7 (Token.byte 0)).length ∧ npixOf 2 1 % 4 ≠ 0 := by decide

/-- Exactly as many bytes as the raster takes, one more, one less before an `END`, and a call that is in `ERR`. -/
theorem witness_TheEarliestErrorWins :
    ((List.replicate 6 (0 : Byte)).length ≤ 6 * (npixOf 4 1 / 4) ∧ 6 * (npixOf 4 1 / 4) < (List.replicate 7 (0 : Byte)).length ∧
      ¬(2 * (List.replicate 5 (0 : Byte)).length = 3 * npixOf 4 1 ∧ npixOf 4 1 % 4 = 0)) ∧
    ∃ t, runCall State.reset 4 1 [.fail] = .next t ∧ t.st = .err := ⟨by decide, _, rfl, by decide⟩

theorem witness_WellFormedStreamsEndTheRun : WellFormedStream [.byte 1, .byte 2, .fail] ∧ WellFormedStream [.endTok] :=
  ⟨⟨[1, 2], Or.inr rfl⟩, ⟨[], Or.inl rfl⟩⟩

theorem witness_OnlyTokenKindsSteerARun :
    [Token.byte 1, .byte 2, .fail].map (fun k => match k with | .byte _ => Token.byte 0 | k => k) =
      [Token.byte 7, .byte 9, .fail].map (fun k => match k with | .byte _ => Token.byte 0 | k => k) := by decide

end Sys2Proof.Tests
end

section
/-! SUPPORT. The converter's numerators (40_converter.md R82) and their division by the scale (R81), as integers. -/

namespace Sys2Proof.Machine

theorem numRed_bounds (y cr : Byte) : -17945600 ≤ numRed y cr ∧ numRed y cr ≤ 43305400 := by
  have := luma_bounds y
  have := debias_bounds cr
  simp only [numRed, scale, kRcr]
  omega

theorem numGreen_bounds (y cb cr : Byte) : -13440156 ≤ numGreen y cb cr ∧ numGreen y cb cr ≤ 39045984 := by
  have := luma_bounds y
  have := debias_bounds cb
  have := debias_bounds cr
  simp only [numGreen, scale, kGcb, kGcr]
  omega

theorem numBlue_bounds (y cb : Byte) : -22681600 ≤ numBlue y cb ∧ numBlue y cb ≤ 48004400 := by
  have := luma_bounds y
  have := debias_bounds cb
  simp only [numBlue, scale, kBcb]
  omega

/-- R81: the two divisions differ only where both quotients are clamped to 0. -/
theorem clamp255_tdiv (m : Int) {d : Int} (hd : 0 < d) : clamp255 (m.tdiv d) = clamp255 (m / d) := by
  by_cases hm : 0 ≤ m
  · rw [Int.tdiv_eq_ediv_of_nonneg hm]
  · have hfloor : m / d ≤ 0 := Int.ediv_nonpos_of_nonpos_of_neg (by omega) hd
    have htrunc : m.tdiv d ≤ 0 := by
      have := Int.tdiv_nonneg (a := -m) (by omega) hd.le
      rw [Int.neg_tdiv] at this
      omega
    rw [clamp255_low hfloor, clamp255_low htrunc]

end Sys2Proof.Machine
end

section
/-! SUPPORT. The accumulator (00_scope.md R8, 40_converter.md R82): its numerators are the exact numerators reduced to `n`
bits, whatever `n` is, since two's-complement reduction is a ring homomorphism; from 27 bits up nothing is lost. -/

namespace Sys2Proof.Machine

/-- From 27 bits up the accumulator holds every value of 27 signed bits exactly. -/
theorem toInt_ofInt_of_27_bits {n : Nat} (hn : 27 ≤ n) {k : Int} (hlo : -67108864 ≤ k) (hhi : k < 67108864) :
    (BitVec.ofInt n k).toInt = k := by
  have hpow : (2 : Int) ^ 26 ≤ 2 ^ (n - 1) := pow_le_pow_right₀ (by decide) (by omega)
  exact BitVec.toInt_ofInt_eq_self (by omega) (by omega) (by omega)

theorem ofInt_sub (n : Nat) (a b : Int) : BitVec.ofInt n (a - b) = BitVec.ofInt n a - BitVec.ofInt n b := by
  rw [Int.sub_eq_add_neg, BitVec.ofInt_add, BitVec.ofInt_neg, ← BitVec.sub_eq_add_neg]

theorem accLuma_eq (n : Nat) (y : Byte) : accLuma n y = BitVec.ofInt n (luma y) := by
  rw [luma, BitVec.ofInt_natCast, BitVec.ofNat_toNat, accLuma]

/-- 30_encoding.md R58: a chroma byte with its top bit inverted, read as signed, is the debiased chroma. -/
theorem toInt_xor_top_bit : ∀ c : Byte, (c ^^^ 0x80).toInt = debias c := by decide

theorem accChroma_eq (n : Nat) (c : Byte) : accChroma n c = BitVec.ofInt n (debias c) := by
  rw [accChroma, BitVec.signExtend, toInt_xor_top_bit]

theorem accRed_eq (n : Nat) (y cr : Byte) : accRed n y cr = BitVec.ofInt n (numRed y cr) := by
  simp only [accRed, numRed, accConst, accLuma_eq, accChroma_eq, BitVec.ofInt_add, BitVec.ofInt_mul]

theorem accGreen_eq (n : Nat) (y cb cr : Byte) : accGreen n y cb cr = BitVec.ofInt n (numGreen y cb cr) := by
  simp only [accGreen, numGreen, accConst, accLuma_eq, accChroma_eq, ofInt_sub, BitVec.ofInt_mul]

theorem accBlue_eq (n : Nat) (y cb : Byte) : accBlue n y cb = BitVec.ofInt n (numBlue y cb) := by
  simp only [accBlue, numBlue, accConst, accLuma_eq, accChroma_eq, BitVec.ofInt_add, BitVec.ofInt_mul]

/-- The scale is not -1 in the accumulator, so the one overflow of signed division cannot happen. -/
theorem toInt_sdiv_scale {n : Nat} (hn : 27 ≤ n) (x : BitVec n) :
    (x.sdiv (accConst n scale)).toInt = x.toInt.tdiv scale := by
  have hscale : (accConst n scale).toInt = scale := toInt_ofInt_of_27_bits hn (by decide) (by decide)
  have hne : accConst n scale ≠ -1#n := by
    intro h
    have hneg : (BitVec.ofInt n (-1)).toInt = -1 := toInt_ofInt_of_27_bits hn (by decide) (by decide)
    rw [h, show -1#n = BitVec.ofInt n (-1) by rw [BitVec.ofInt_neg, BitVec.ofInt_ofNat], hneg] at hscale
    exact absurd hscale (by decide)
  rw [BitVec.toInt_sdiv_of_ne_or_ne _ _ (.inr hne), hscale]

/-- The channel is the clamp of the truncating quotient: both tests and the low byte read the quotient exactly. -/
theorem accChannel_eq {n : Nat} (hn : 27 ≤ n) (x : BitVec n) : accChannel x = clamp255 (x.toInt.tdiv scale) := by
  have h255 : (accConst n 255).toInt = 255 := toInt_ofInt_of_27_bits hn (by decide) (by decide)
  have hbyte : (x.sdiv (accConst n scale)).setWidth 8 = BitVec.ofInt 8 (x.sdiv (accConst n scale)).toInt :=
    (BitVec.signExtend_eq_setWidth_of_le _ (by omega)).symm
  simp only [accChannel, clamp255, BitVec.slt_iff_toInt_lt, hbyte, h255, toInt_sdiv_scale hn, BitVec.ofNat_eq_ofNat,
    BitVec.toInt_zero]

/-- A numerator that fits 27 signed bits comes out of the datapath as `CLAMP255(DIVSCALE(.))` of the exact value. -/
theorem accChannel_ofInt {n : Nat} (hn : 27 ≤ n) {k : Int} (hlo : -67108864 ≤ k) (hhi : k < 67108864) :
    accChannel (BitVec.ofInt n k) = clamp255 (divScale k) := by
  rw [accChannel_eq hn, toInt_ofInt_of_27_bits hn hlo hhi, clamp255_tdiv k (by decide), divScale]

/-- Settles O16: each numerator fits 27 signed bits, so each channel is the exact one. -/
theorem accumulatorDatapathEqualsRec601 : Obligations.AccumulatorDatapathEqualsRec601 := by
  intro n hn y cb cr
  obtain ⟨hrlo, hrhi⟩ := numRed_bounds y cr
  obtain ⟨hglo, hghi⟩ := numGreen_bounds y cb cr
  obtain ⟨hblo, hbhi⟩ := numBlue_bounds y cb
  rw [accRec601, rec601, accRed_eq, accGreen_eq, accBlue_eq, accChannel_ofInt hn (by omega) (by omega),
    accChannel_ofInt hn (by omega) (by omega), accChannel_ofInt hn (by omega) (by omega)]

end Sys2Proof.Machine
end

section
/-! SUPPORT. One step is one event: the step in terms of `exec`, and the obligation about it. -/

namespace Sys2Proof.Machine

/-- A refused read is the one outcome that the step turns into a next state (log 10). -/
theorem step_of_refused_read {s : State} {f : Frame} {fs : List Frame} {i : Instr} (h : s.env.offers = f :: fs)
    (hd : decodeEvent f = .ok i) (hx : exec i (s.setOffers fs) = .refused .readNotEnabled) :
    step s = .next ((s.setOffers fs).handBack .refused) := by
  rw [step_decoded h hd, hx, settleRead]

/-- Every other outcome of `exec` is the step's. -/
theorem step_of_not_refused_read {s : State} {f : Frame} {fs : List Frame} {i : Instr} (h : s.env.offers = f :: fs)
    (hd : decodeEvent f = .ok i) (hx : exec i (s.setOffers fs) ≠ .refused .readNotEnabled) :
    step s = exec i (s.setOffers fs) := by
  rw [step_decoded h hd]
  unfold settleRead
  split
  · exact absurd ‹_› hx
  · rfl

/-- Settles O33: on a host port the event is what the frame decodes to, on an inner place it is refused. -/
theorem stepRunsTheDecodedOperation : Obligations.StepRunsTheDecodedOperation := by
  refine ⟨fun s f fs ho => ⟨fun hport => ⟨fun i hd => ?_, fun r hd => ?_⟩, fun hport => ?_⟩, fun f i hport hd => ?_⟩
  · have hevent : decodeEvent f = .ok i := decodeEvent_ok_iff.mpr ⟨hport, hd⟩
    exact ⟨step_of_refused_read ho hevent, step_of_not_refused_read ho hevent⟩
  · exact step_undecodable ho ((decodeEvent_of_host hport).trans hd)
  · exact step_undecodable ho (decodeEvent_of_internal hport)
  · exact event_not_internal (decodeEvent_ok_iff.mpr ⟨hport, hd⟩)

end Sys2Proof.Machine
end

section
/-! SUPPORT. The thirteen things an operation can do, by name: `exec_next_cases` as an inductive relation, so that a proof
names the transitions that matter to it and closes the others together. -/

namespace Sys2Proof.Machine

/-- The transitions of the machine, each with its guard and its next state. -/
inductive Transition : Instr → State → State → Prop
  /-- `RESET` (41_sequencer.md R97). -/
  | reset (s : State) : Transition .reset s s.forceReset
  /-- `START` in `IDLE` (R91). -/
  | startRun {s : State} (w h : GeomWord) (hidle : s.st = .idle) : Transition (.start w h) s (s.beginRun w h)
  /-- `START` elsewhere (R91). -/
  | ignoreStart {s : State} (w h : GeomWord) (hst : s.st ≠ .idle) : Transition (.start w h) s s
  /-- A token outside `RUN` (R92). -/
  | leave {i : Instr} {s : State} (k : Token) (hi : i = k.toInstr) (hst : s.st ≠ .run) : Transition i s (s.leaveToken k)
  /-- The first excess byte (R93). -/
  | excess {s : State} (b : Byte) (hrun : s.st = .run) (hphase : s.phase = 0) (hroom : s.hasRoom = false) :
    Transition (.byte b) s (s.raise .truncatedInput)
  /-- One of the first five bytes of a macroblock (R93). -/
  | store {s : State} (b : Byte) (hrun : s.st = .run) (hphase : s.phase ≠ 5) (hroom : s.phase = 0 → s.hasRoom = true) :
    Transition (.byte b) s ((s.writeMb s.phase b).setPos s.mbi (s.phase + 1))
  /-- The sixth byte, with the `MB4` inside it (R93, R94). -/
  | complete {s : State} (b : Byte) (hrun : s.st = .run) (hphase : s.phase = 5) (hroom : s.hasRoom = true) :
    Transition (.byte b) s
      (((s.writeMb 5 b).setRaster (writeMacroblock s.mbi.toNat (s.mb.set 5 b) s.raster)).setPos (s.mbi + 1) 0)
  /-- `END` on a full raster (R95). -/
  | finish {s : State} (hrun : s.st = .run) (hphase : s.phase = 0) (hfull : 4 * s.mbi.toNat = s.npix) :
    Transition .endTok s (s.setSt .done)
  /-- `END` on any other (R95). -/
  | truncate {s : State} (hrun : s.st = .run) (hshort : s.phase ≠ 0 ∨ 4 * s.mbi.toNat ≠ s.npix) :
    Transition .endTok s (s.raise .truncatedInput)
  /-- `FAIL` (R96). -/
  | fail {s : State} (hrun : s.st = .run) : Transition .fail s (s.raise .unreadableSource)
  /-- `MB4` as an operation by itself (log 12). -/
  | mb4 {s : State} (y0 y1 y2 y3 cb cr : Byte) (hrun : s.st = .run) (hroom : s.hasRoom = true) :
    Transition (.mb4 y0 y1 y2 y3 cb cr) s
      (s.setRaster (writeMacroblock s.mbi.toNat ⟨y0, y1, y2, y3, cb, cr⟩ s.raster))
  /-- `REC601` as an operation by itself (log 12). -/
  | rec601 (y cb cr : Byte) (s : State) : Transition (.rec601 y cb cr) s (s.handBack (.pixel (rec601 y cb cr)))
  /-- An enabled `RD` (R98). -/
  | read {s : State} (a : Nat) (v : Byte) (hdone : s.st = .done) (ha : a < s.cap) (hv : s.raster.read a = some v) :
    Transition (.rd a) s (s.handBack (.byte v))

/-- An operation that answers a next state takes one of the transitions. -/
theorem transition_of_exec {i : Instr} {s t : State} (h : exec i s = .next t) : Transition i s t := by
  rcases exec_next_cases h with ⟨rfl, rfl⟩ | ⟨w, g, rfl, hidle, rfl⟩ | ⟨w, g, rfl, hst, rfl⟩ | ⟨k, hi, hst, rfl⟩ |
    ⟨b, rfl, hrun, hphase, hroom, rfl⟩ | ⟨b, rfl, hrun, hphase, hroom, rfl⟩ | ⟨b, rfl, hrun, hphase, hroom, rfl⟩ |
    ⟨rfl, hrun, hphase, hfull, rfl⟩ | ⟨rfl, hrun, hshort, rfl⟩ | ⟨rfl, hrun, rfl⟩ |
    ⟨y0, y1, y2, y3, cb, cr, rfl, hrun, hroom, rfl⟩ | ⟨y, cb, cr, rfl, rfl⟩ | ⟨a, v, rfl, hdone, ha, hv, rfl⟩
  · exact .reset s
  · exact .startRun w g hidle
  · exact .ignoreStart w g hst
  · exact .leave k hi hst
  · exact .excess b hrun hphase hroom
  · exact .store b hrun hphase hroom
  · exact .complete b hrun hphase hroom
  · exact .finish hrun hphase hfull
  · exact .truncate hrun hshort
  · exact .fail hrun
  · exact .mb4 y0 y1 y2 y3 cb cr hrun hroom
  · exact .rec601 y cb cr s
  · exact .read a v hdone ha hv

end Sys2Proof.Machine
end

section
/-! SUPPORT. The invariant: one rule per update of the state, then every transition and every step keeps it. -/

namespace Sys2Proof.Machine

/-- Before its last value `PHASE` counts up without wrapping (10_state.md R13). -/
theorem phase_succ_val {p : Fin 6} (h : p ≠ 5) : (p + 1).val = p.val + 1 :=
  Fin.val_add_one_of_lt' (by omega)

/-- The bytes of the macroblock that `MB4` writes are written. -/
theorem writeMacroblock_read_isSome (k : Nat) (q : Macroblock) (m : Memory) {a : Nat} (hlo : writePointer k ≤ a)
    (hhi : a < writePointer k + 12) : ((writeMacroblock k q m).read a).isSome := by
  obtain ⟨d, rfl⟩ := Nat.exists_eq_add_of_le hlo
  have hread := writeMacroblock_read_inside k q m d (by omega)
  rw [show writePointer k = 12 * k from rfl, hread, Option.isSome_some]

/-- With room for a macroblock its twelve bytes lie below `CAP` (20_memory.md R30). -/
theorem writePointer_le_cap {s : State} (h : s.hasRoom = true) : writePointer s.mbi.toNat + 12 ≤ s.cap :=
  (hasRoom_iff_fits s).mp h

/-- The invariant speaks of the block alone. -/
theorem MachineInvariant.of_sameBlock {s t : State} (hs : MachineInvariant s) (h : SameBlock s t) : MachineInvariant t := by
  rw [h]
  exact ⟨hs.errExact, hs.bounded, hs.idleClean, hs.doneExact, hs.rasterWf, hs.rasterWritten, hs.rasterBounded⟩

/-- No register of the macroblock is in the invariant. -/
theorem MachineInvariant.writeMb {s : State} (hs : MachineInvariant s) (j : Fin 6) (v : Byte) :
    MachineInvariant (s.writeMb j v) :=
  ⟨hs.errExact, hs.bounded, hs.idleClean, hs.doneExact, hs.rasterWf, hs.rasterWritten, hs.rasterBounded⟩

/-- The reset values satisfy the invariant, whatever is with the host. -/
theorem forceReset_invariant (s : State) : MachineInvariant s.forceReset where
  errExact := by simp
  bounded := Nat.zero_le _
  idleClean _ := ⟨rfl, rfl, rfl, rfl⟩
  doneExact h := by cases h
  rasterWf := rfl
  rasterWritten _ ha := absurd ha (Nat.not_lt_zero _)
  rasterBounded _ _ := rfl

/-- Before a run the raster has no capacity, so it holds no byte. -/
theorem MachineInvariant.raster_empty_of_idle {s : State} (hs : MachineInvariant s) (hidle : s.st = .idle) (a : Nat) :
    s.raster.read a = none := by
  obtain ⟨-, -, hw, -⟩ := hs.idleClean hidle
  have hcap : s.cap = 0 := by simp [State.npix, npixOf, hw]
  exact hs.rasterBounded a (by omega)

/-- `START` in `IDLE`: no raster byte is held that the new geometry could exclude. -/
theorem MachineInvariant.beginRun {s : State} (hs : MachineInvariant s) (hidle : s.st = .idle) (w h : GeomWord) :
    MachineInvariant (s.beginRun w h) where
  errExact := by simp
  bounded := Nat.zero_le _
  idleClean h := by cases h
  doneExact h := by cases h
  rasterWf := hs.rasterWf
  rasterWritten _ ha := absurd ha (Nat.not_lt_zero _)
  rasterBounded a _ := hs.raster_empty_of_idle hidle a

/-- An error changes neither the position nor the raster. -/
theorem MachineInvariant.raise {s : State} (hs : MachineInvariant s) {e : ErrKind} (he : e ≠ .noError) :
    MachineInvariant (s.raise e) where
  errExact := by simpa using he
  bounded := hs.bounded
  idleClean h := by cases h
  doneExact h := by cases h
  rasterWf := hs.rasterWf
  rasterWritten := hs.rasterWritten
  rasterBounded := hs.rasterBounded

/-- A run without an error may end in `DONE` when the raster is full and no macroblock is begun (41_sequencer.md R95). -/
theorem MachineInvariant.setSt_done {s : State} (hs : MachineInvariant s) (hrun : s.st = .run) (hphase : s.phase = 0)
    (hfull : 4 * s.mbi.toNat = s.npix) : MachineInvariant (s.setSt .done) where
  errExact := by simpa [hrun] using hs.errExact
  bounded := hs.bounded
  idleClean h := by cases h
  doneExact _ := ⟨hphase, hfull⟩
  rasterWf := hs.rasterWf
  rasterWritten := hs.rasterWritten
  rasterBounded := hs.rasterBounded

/-- In a run the position may move as far as the raster has been written. -/
theorem MachineInvariant.setPos {s : State} (hs : MachineInvariant s) (hrun : s.st = .run) {k : IndexWord} {p : Fin 6}
    (hbound : 6 * k.toNat + p.val ≤ 6 * (s.npix / 4))
    (hwritten : ∀ a, a < writePointer k.toNat → (s.raster.read a).isSome) : MachineInvariant (s.setPos k p) where
  errExact := hs.errExact
  bounded := hbound
  idleClean h := by simp [hrun] at h
  doneExact h := by simp [hrun] at h
  rasterWf := hs.rasterWf
  rasterWritten := hwritten
  rasterBounded := hs.rasterBounded

/-- The twelve writes of `MB4` where the raster has room for them: nothing written becomes unwritten, nothing from `CAP` on
is written. -/
theorem MachineInvariant.setRaster_writeMacroblock {s : State} (hs : MachineInvariant s) (hroom : s.hasRoom = true)
    (q : Macroblock) : MachineInvariant (s.setRaster (writeMacroblock s.mbi.toNat q s.raster)) where
  errExact := hs.errExact
  bounded := hs.bounded
  idleClean := hs.idleClean
  doneExact := hs.doneExact
  rasterWf := writeMacroblock_wf hs.rasterWf _ _
  rasterWritten a ha := by
    rw [State.setRaster_mbi] at ha
    rw [State.setRaster_raster, writeMacroblock_read_outside _ _ _ _ (.inl ha)]
    exact hs.rasterWritten a ha
  rasterBounded a ha := by
    rw [State.setRaster_raster, writeMacroblock_read_outside _ _ _ _ (.inr ((writePointer_le_cap hroom).trans ha))]
    exact hs.rasterBounded a ha

/-- One of the first five bytes: at `PHASE` 0 the room test bounds the position, later the invariant itself does. -/
theorem MachineInvariant.storeByte {s : State} (hs : MachineInvariant s) (hrun : s.st = .run) (b : Byte)
    (hphase : s.phase ≠ 5) (hroom : s.phase = 0 → s.hasRoom = true) :
    MachineInvariant ((s.writeMb s.phase b).setPos s.mbi (s.phase + 1)) := by
  refine (hs.writeMb s.phase b).setPos hrun ?_ hs.rasterWritten
  have hmbi : s.mbi.toNat + 1 ≤ s.npix / 4 := by
    by_cases h0 : s.phase = 0
    · have := (State.hasRoom_iff s).mp (hroom h0)
      omega
    · have := hs.bounded
      rw [State.consumed_eq] at this
      omega
  rw [phase_succ_val hphase, State.writeMb_npix]
  omega

/-- The sixth byte: the twelve writes cover the macroblock the position moves past. -/
theorem MachineInvariant.completeByte {s : State} (hs : MachineInvariant s) (hrun : s.st = .run) (b : Byte)
    (hroom : s.hasRoom = true) :
    MachineInvariant
      (((s.writeMb 5 b).setRaster (writeMacroblock s.mbi.toNat (s.mb.set 5 b) s.raster)).setPos (s.mbi + 1) 0) := by
  have hnext := mbi_succ_toNat hroom
  have hstored := (hs.writeMb 5 b).setRaster_writeMacroblock hroom (s.mb.set 5 b)
  refine hstored.setPos hrun ?_ fun a ha => ?_
  · have := (State.hasRoom_iff s).mp hroom
    rw [hnext, State.setRaster_npix, State.writeMb_npix, Fin.val_zero]
    omega
  · by_cases hbefore : a < writePointer s.mbi.toNat
    · exact hstored.rasterWritten a hbefore
    · rw [hnext] at ha
      exact writeMacroblock_read_isSome _ _ _ (Nat.le_of_not_lt hbefore) ha

/-- Every transition keeps the invariant, `MB4` as an operation by itself included. -/
theorem Transition.keeps_invariant {i : Instr} {s t : State} (h : Transition i s t) (hs : MachineInvariant s) :
    MachineInvariant t := by
  cases h with
  | reset => exact forceReset_invariant s
  | startRun w g hidle => exact hs.beginRun hidle w g
  | ignoreStart => exact hs
  | leave | rec601 | read => exact hs.of_sameBlock rfl
  | excess | truncate | fail => exact hs.raise (by decide)
  | store b hrun hphase hroom => exact hs.storeByte hrun b hphase hroom
  | complete b hrun _ hroom => exact hs.completeByte hrun b hroom
  | finish hrun hphase hfull => exact hs.setSt_done hrun hphase hfull
  | mb4 _ _ _ _ _ _ _ hroom => exact hs.setRaster_writeMacroblock hroom _

/-- Settles O36: a step takes an event off the offers, runs a transition, or hands back a refusal. -/
theorem everyStepKeepsTheInvariant : Obligations.EveryStepKeepsTheInvariant := by
  intro s t hs hstep
  rcases step_next_cases hstep with ⟨-, rfl⟩ | ⟨f, fs, i, -, -, hexec | ⟨-, rfl⟩⟩
  · exact hs
  · have hoffers : MachineInvariant (s.setOffers fs) := hs.of_sameBlock rfl
    exact (transition_of_exec hexec).keeps_invariant hoffers
  · exact hs.of_sameBlock rfl

/-- Settles O37: the power-on state is its own forced reset. -/
theorem resetHasTheInvariant : Obligations.ResetHasTheInvariant :=
  forceReset_invariant State.reset

end Sys2Proof.Machine
end

section
/-! SUPPORT. What each piece of the state is changed by (10_state.md), read off the transitions. -/

namespace Sys2Proof.Machine

/-- An accepted byte moves the position by one, over the end of a macroblock too (10_state.md R15). -/
theorem consumed_of_accepted_byte {b : Byte} {s t : State} (h : exec (.byte b) s = .next t) (hrun : s.st = .run)
    (haccepted : t.st = .run) : t.consumed = s.consumed + 1 := by
  cases transition_of_exec h with
  | leave k hi hst => exact absurd hrun hst
  | excess => cases haccepted
  | store _ _ hphase _ =>
    rw [State.consumed_eq, State.consumed_eq, State.setPos_mbi, State.setPos_phase, phase_succ_val hphase, Nat.add_assoc]
  | complete _ _ hphase hroom =>
    have hlast : s.phase.val = 5 := congrArg Fin.val hphase
    rw [State.consumed_eq, State.consumed_eq, State.setPos_mbi, State.setPos_phase, mbi_succ_toNat hroom, hlast, Fin.val_zero]
    omega

/-- An operation that is no accepted byte, no reset and no `START` in `IDLE` leaves the position. -/
theorem Transition.position_unchanged {i : Instr} {s t : State} (h : Transition i s t)
    (hbyte : ¬((∃ b, i = .byte b) ∧ s.st = .run ∧ t.st = .run))
    (hclear : ¬(i = .reset ∨ ((∃ w h, i = .start w h) ∧ s.st = .idle))) : t.mbi = s.mbi ∧ t.phase = s.phase := by
  cases h with
  | reset => exact absurd (.inl rfl) hclear
  | startRun w g hidle => exact absurd (.inr ⟨⟨w, g, rfl⟩, hidle⟩) hclear
  | store b hrun | complete b hrun => exact absurd ⟨⟨b, rfl⟩, hrun, hrun⟩ hbyte
  | _ => exact ⟨rfl, rfl⟩

/-- Settles O43, by its three clauses. -/
theorem positionMovesOnlyForward : Obligations.PositionMovesOnlyForward := by
  intro i s t h accepted cleared
  refine ⟨?_, ?_, (transition_of_exec h).position_unchanged⟩
  · rintro ⟨⟨b, rfl⟩, hrun, haccepted⟩
    exact consumed_of_accepted_byte h hrun haccepted
  · rintro (rfl | ⟨⟨w, g, rfl⟩, hidle⟩)
    · cases h
      exact ⟨rfl, rfl⟩
    · simp only [exec, execStart, hidle, if_true] at h
      cases h
      exact ⟨rfl, rfl⟩

/-- Settles O44: only `RESET` and a `START` in `IDLE` write the latches. -/
theorem geometryHoldsDuringARun : Obligations.GeometryHoldsDuringARun := by
  intro i s t h
  cases transition_of_exec h with
  | reset => exact .inr (.inl ⟨rfl, rfl, rfl⟩)
  | startRun w g hidle => exact .inr (.inr ⟨w, g, rfl, hidle, rfl, rfl⟩)
  | _ => exact .inl ⟨rfl, rfl⟩

/-- A write that changes what register `j` reads is a write of register `j`, with the value it reads then. -/
theorem get_set_changed {m : Macroblock} {k j : Fin 6} {v : Byte} (h : (m.set k v).get j ≠ m.get j) :
    k = j ∧ v = (m.set k v).get j := by
  rw [Macroblock.get_set] at h ⊢
  split at h
  · exact ⟨.symm ‹_›, (if_pos ‹_›).symm⟩
  · exact absurd rfl h

/-- Settles O45: of the transitions only reset and the two kinds of accepted byte write registers. -/
theorem registersAreWrittenOnlyByTheirByte : Obligations.RegistersAreWrittenOnlyByTheirByte := by
  intro i s t j h hchanged
  cases transition_of_exec h with
  | reset => exact .inl rfl
  | store b hrun =>
    obtain ⟨hphase, hvalue⟩ := get_set_changed hchanged
    exact .inr ⟨hrun, hphase, congrArg Instr.byte hvalue⟩
  | complete b hrun hphase =>
    obtain ⟨hlast, hvalue⟩ := get_set_changed hchanged
    exact .inr ⟨hrun, hphase.trans hlast, congrArg Instr.byte hvalue⟩
  | _ => exact absurd rfl hchanged

/-- With room, `MB4` writes the twelve bytes of macroblock `MBI`, all below `CAP`, and no other (41_sequencer.md R94). -/
theorem writeMacroblock_frame {s : State} (hroom : s.hasRoom = true) (q : Macroblock) :
    SameOutside s.mbi.toNat s.raster (writeMacroblock s.mbi.toNat q s.raster) ∧
    ∀ a, writePointer s.mbi.toNat ≤ a → a < writePointer s.mbi.toNat + 12 →
      ((writeMacroblock s.mbi.toNat q s.raster).read a).isSome ∧ a < s.cap :=
  ⟨writeMacroblock_read_outside _ q _, fun _ hlo hhi =>
    ⟨writeMacroblock_read_isSome _ q _ hlo hhi, hhi.trans_le (writePointer_le_cap hroom)⟩⟩

/-- Settles O46: of the transitions only reset, the sixth byte and `MB4` by itself write the raster. -/
theorem rasterIsWrittenOnlyByMb4 : Obligations.RasterIsWrittenOnlyByMb4 := by
  intro i s t h
  cases transition_of_exec h with
  | reset => exact .inr (.inl ⟨rfl, Memory.read_nil⟩)
  | complete b hrun hphase hroom =>
    exact .inr (.inr ⟨hrun, .inl ⟨b, rfl, hphase⟩, writeMacroblock_frame hroom _⟩)
  | mb4 y0 y1 y2 y3 cb cr hrun hroom =>
    exact .inr (.inr ⟨hrun, .inr ⟨y0, y1, y2, y3, cb, cr, rfl⟩, writeMacroblock_frame hroom _⟩)
  | _ => exact .inl fun _ => rfl

/-- Settles O47: a token outside `RUN`, `REC601` and `RD` are the only transitions that touch the environment. -/
theorem environmentChangesOnlyByUntakenTokensAndResults :
    Obligations.EnvironmentChangesOnlyByUntakenTokensAndResults := by
  intro i s t h
  cases transition_of_exec h with
  | leave k hi hst => exact ⟨rfl, .inr ⟨k, hi, hst, rfl⟩, .inl rfl⟩
  | rec601 y cb cr => exact ⟨rfl, .inl rfl, .inr (.inl ⟨y, cb, cr, rfl, rfl⟩)⟩
  | read a v hdone ha hv => exact ⟨rfl, .inl rfl, .inr (.inr ⟨a, v, rfl, hdone, ha, hv, rfl⟩)⟩
  | _ => exact ⟨rfl, .inl rfl, .inl rfl⟩

end Sys2Proof.Machine
end

section
/-! SUPPORT. The reset values and the codes of `STATUS` (10_state.md R18, R19, R23). -/

namespace Sys2Proof.Machine

/-- Settles O29: the reset state's fields are the reset values. -/
theorem powerOnIsAResetState : Obligations.PowerOnIsAResetState :=
  ⟨⟨rfl, rfl, rfl, rfl, rfl, rfl, Memory.read_nil⟩, rfl, rfl⟩

/-- `ST` is coded 11 exactly in `ERR`. -/
theorem Ctrl.code_eq_three_iff (c : Ctrl) : c.code = 0b11 ↔ c = .err := by
  cases c <;> decide

/-- `ERR` is coded 00 exactly when there is no error. -/
theorem ErrKind.code_eq_zero_iff (e : ErrKind) : e.code = 0b00 ↔ e = .noError := by
  cases e <;> decide

/-- No error kind has the reserved code. -/
theorem ErrKind.code_ne_reserved (e : ErrKind) : e.code ≠ 0b11 := by
  cases e <;> decide

/-- Settles O49: the fields of `STATUS` are the codes of `ST` and `ERR`, and the invariant ties the two. -/
theorem statusHasTheSpecsCodes : Obligations.StatusHasTheSpecsCodes := by
  refine ⟨fun s => ?_, fun s hs => ?_⟩
  · rw [State.status_low, State.status_high]
    refine ⟨?_, ?_, s.err.code_ne_reserved⟩
    · cases s.st <;> rfl
    · cases s.err <;> rfl
  · rw [State.status_low, State.status_high]
    exact (s.err.code_eq_zero_iff.not.trans hs.errExact).trans s.st.code_eq_three_iff.symm

end Sys2Proof.Machine
end

section
/-! SUPPORT. The converse of `transition_of_exec`: a transition whose guard holds is what `exec` answers; and what this gives
about states that differ in the environment. -/

namespace Sys2Proof.Machine

/-- Every transition is taken: `exec` answers its next state. -/
theorem Transition.exec_eq {i : Instr} {s t : State} (h : Transition i s t) : exec i s = .next t := by
  cases h with
  | reset | rec601 => rfl
  | startRun w g hidle => simp [exec, execStart, hidle]
  | ignoreStart w g hst => simp [exec, execStart, hst]
  | leave k hi hst => rw [hi, exec_token_outside_run k hst]
  | excess b hrun hphase hroom => simp [exec, execByte, takeByte, hrun, hphase, hroom]
  | store b hrun hphase hroom =>
    have hmore : ¬(s.phase = 0 ∧ s.hasRoom = false) := fun ⟨h0, hfull⟩ => by simp [hroom h0] at hfull
    simp [exec, execByte, takeByte, hrun, hphase, hmore]
  | complete b hrun hphase hroom => exact exec_sixth_byte_of_room hrun hphase hroom
  | finish hrun hphase hfull => simp [exec, execEnd, takeEnd, hrun, hphase, hfull]
  | truncate hrun hshort =>
    rcases takeEnd_cases s with ⟨hphase, hfull, -⟩ | ⟨-, htake⟩
    · simp [hphase, hfull] at hshort
    · simp [exec, execEnd, hrun, htake]
  | fail hrun => simp [exec, execFail, hrun]
  | mb4 y0 y1 y2 y3 cb cr hrun hroom => exact exec_mb4_of_room hrun hroom
  | read a v hdone ha hv =>
    have henabled : s.readEnabled a = true := decide_eq_true ⟨hdone, ha⟩
    simp [exec, execRd, henabled, hv]

/-- What a transition does to the environment is a function of the environment alone, and this function does not look at the
offers; its guard and what becomes of the block do not depend on the environment. -/
theorem Transition.env_irrelevant {i : Instr} {s t : State} (h : Transition i s t) :
    ∃ g : Env → Env, t.env = g s.env ∧ (∀ e fs, g { e with offers := fs } = { g e with offers := fs }) ∧
      ∀ e, Transition i { s with env := e } { t with env := g e } := by
  cases h with
  | reset => exact ⟨id, rfl, fun _ _ => rfl, fun _ => .reset _⟩
  | startRun w g hidle => exact ⟨id, rfl, fun _ _ => rfl, fun _ => .startRun w g hidle⟩
  | ignoreStart w g hst => exact ⟨id, rfl, fun _ _ => rfl, fun _ => .ignoreStart w g hst⟩
  | leave k hi hst =>
    exact ⟨fun e => { e with untaken := e.untaken ++ [k] }, rfl, fun _ _ => rfl, fun _ => .leave k hi hst⟩
  | excess b hrun hphase hroom => exact ⟨id, rfl, fun _ _ => rfl, fun _ => .excess b hrun hphase hroom⟩
  | store b hrun hphase hroom => exact ⟨id, rfl, fun _ _ => rfl, fun _ => .store b hrun hphase hroom⟩
  | complete b hrun hphase hroom => exact ⟨id, rfl, fun _ _ => rfl, fun _ => .complete b hrun hphase hroom⟩
  | finish hrun hphase hfull => exact ⟨id, rfl, fun _ _ => rfl, fun _ => .finish hrun hphase hfull⟩
  | truncate hrun hshort => exact ⟨id, rfl, fun _ _ => rfl, fun _ => .truncate hrun hshort⟩
  | fail hrun => exact ⟨id, rfl, fun _ _ => rfl, fun _ => .fail hrun⟩
  | mb4 y0 y1 y2 y3 cb cr hrun hroom =>
    exact ⟨id, rfl, fun _ _ => rfl, fun _ => .mb4 y0 y1 y2 y3 cb cr hrun hroom⟩
  | rec601 y cb cr =>
    exact ⟨fun e => { e with handed := .pixel (Machine.rec601 y cb cr) }, rfl, fun _ _ => rfl, fun _ => .rec601 y cb cr _⟩
  | read a v hdone ha hv =>
    exact ⟨fun e => { e with handed := .byte v }, rfl, fun _ _ => rfl, fun _ => .read a v hdone ha hv⟩

/-- From a state with the same block the operation answers a next state with the same block. -/
theorem exec_sameBlock {i : Instr} {s s' t : State} (h : exec i s = .next t) (hsame : SameBlock s s') :
    ∃ t', exec i s' = .next t' ∧ SameBlock t t' := by
  obtain ⟨g, -, -, htransition⟩ := (transition_of_exec h).env_irrelevant
  rw [hsame]
  exact ⟨_, (htransition s'.env).exec_eq, rfl⟩

/-- An operation carries along what is on offer, whatever that is. -/
theorem exec_setOffers {i : Instr} {s t : State} (h : exec i s = .next t) (fs : List Frame) :
    exec i (s.setOffers fs) = .next (t.setOffers fs) := by
  obtain ⟨g, henv, hoffers, htransition⟩ := (transition_of_exec h).env_irrelevant
  have hnext := (htransition { s.env with offers := fs }).exec_eq
  rwa [hoffers, ← henv] at hnext

/-- Settles O32: the read hands back the byte it finds, and finds the same byte again. -/
theorem readIsIdempotent : Obligations.ReadIsIdempotent := by
  intro a s t h
  cases transition_of_exec h with
  | leave k hi => cases k <;> cases hi
  | read _ v hdone ha hv =>
    exact ⟨rfl, rfl, (Transition.read (s := s.handBack (.byte v)) a v hdone ha hv).exec_eq⟩

end Sys2Proof.Machine
end

section
/-! SUPPORT. The raster's layout (20_memory.md R34, R35), and which writes may come in either order (R44). -/

namespace Sys2Proof.Machine

/-- Settles O50: a multiple of 4 splits a pixel number into the macroblock's place in its row and the lane. -/
theorem fourPixelsOfAMacroblockLieInOneRow : Obligations.FourPixelsOfAMacroblockLieInOneRow := by
  refine ⟨fun k i c => ?_, fun w p hw => ⟨Nat.div_add_mod' p w, Nat.mod_lt p hw⟩, fun w k i hw h4 => ?_⟩
  · rw [laneOffset_eq]
    omega
  · obtain ⟨v, rfl⟩ := Nat.dvd_of_mod_eq_zero h4
    have hblock : (4 * k + i.val) / 4 = k := by omega
    have hlane : (4 * k + i.val) % 4 = i.val := by omega
    constructor
    · rw [pixelRow, pixelRow, ← Nat.div_div_eq_div_mul, hblock, Nat.mul_div_mul_left k v (by decide)]
    · rw [pixelColumn, Nat.mod_mul, hblock, hlane, Nat.mul_div_cancel_left v (by decide), Nat.add_comm]

/-- The update writes every one of the `len` offsets from `lo` on, with values that do not depend on what was there, and no
other offset; it keeps the canonical form. -/
structure WritesRange (lo len : Nat) (f : Memory → Memory) : Prop where
  /-- The canonical form is kept. -/
  wf : ∀ {m : Memory}, m.wf = true → (f m).wf = true
  /-- Inside, the value is the update's own. -/
  inside : ∀ (m m' : Memory) (d : Nat), d < len → (f m).read (lo + d) = (f m').read (lo + d)
  /-- Outside, every byte reads as before. -/
  outside : ∀ (m : Memory) (a : Nat), a < lo ∨ lo + len ≤ a → (f m).read a = m.read a

/-- `MB4` writes the twelve bytes of its macroblock (20_memory.md R35). -/
theorem writesRange_writeMacroblock (k : Nat) (q : Macroblock) : WritesRange (writePointer k) 12 (writeMacroblock k q) where
  wf h := writeMacroblock_wf h k q
  inside m m' d hd :=
    (writeMacroblock_read_inside k q m d hd).trans (writeMacroblock_read_inside k q m' d hd).symm
  outside := writeMacroblock_read_outside k q

/-- A lane writes its three bytes. -/
theorem writesRange_writeLane (k : Nat) (i : Fin 4) (x : Pixel) : WritesRange (laneOffset k i 0) 3 (writeLane k i x) where
  wf h := writeLane_wf h k i x
  inside m m' d hd :=
    (writeLane_read_inside k i x m ⟨d, hd⟩).trans (writeLane_read_inside k i x m' ⟨d, hd⟩).symm
  outside := writeLane_read_outside k i x

/-- Updates of disjoint ranges commute on a canonical raster: every offset is written by at most one of them. -/
theorem WritesRange.commute {lo len lo' len' : Nat} {f g : Memory → Memory} (hf : WritesRange lo len f)
    (hg : WritesRange lo' len' g) (hdisjoint : lo + len ≤ lo' ∨ lo' + len' ≤ lo) {m : Memory} (hm : m.wf = true) :
    f (g m) = g (f m) := by
  refine Memory.ext_of_wf (hf.wf (hg.wf hm)) (hg.wf (hf.wf hm)) fun a => ?_
  by_cases hin : lo ≤ a ∧ a < lo + len
  · obtain ⟨d, rfl⟩ := Nat.exists_eq_add_of_le hin.1
    rw [hg.outside _ _ (by omega), hf.inside (g m) m d (by omega)]
  · rw [hf.outside _ _ (by omega)]
    by_cases hin' : lo' ≤ a ∧ a < lo' + len'
    · obtain ⟨d, rfl⟩ := Nat.exists_eq_add_of_le hin'.1
      exact hg.inside m (f m) d (by omega)
    · rw [hg.outside _ _ (by omega), hg.outside _ _ (by omega), hf.outside _ _ (by omega)]

/-- Settles O51: different macroblocks, and different lanes of one, have disjoint ranges. -/
theorem macroblockAndLaneWritesCommute : Obligations.MacroblockAndLaneWritesCommute := by
  refine ⟨fun k l p q m hkl hm => ?_, fun k i j x y m hij hm => ?_⟩
  · refine (writesRange_writeMacroblock k p).commute (writesRange_writeMacroblock l q) ?_ hm
    unfold writePointer
    omega
  · refine (writesRange_writeLane k i x).commute (writesRange_writeLane k j y) ?_ hm
    rw [laneOffset_eq, laneOffset_eq]
    omega

end Sys2Proof.Machine
end

section
/-! SUPPORT. Runs of tokens (41_sequencer.md R104): the steps on their frames are `exec` on the tokens one after the other, so
that a statement about a whole call (70_reset_and_hazards.md R142) is one about `execTokens`. -/

namespace Sys2Proof

theorem decodeEvent_encode_start (w h : GeomWord) : decodeEvent (encode (.start w h)) = .ok (.start w h) := by
  have hw : w.toNat < 65536 := w.isLt
  have hh : h.toNat < 65536 := h.isLt
  have hword := encode_start_toNat w h
  rw [decodeEvent_of_host rfl, decode_of_fits (Laws.EncodedWord.start w h rfl)]
  have hwidth : (encode (.start w h)).word.extractLsb' 16 16 = w := by
    apply BitVec.eq_of_toNat_eq
    rw [field_toNat, hword]
    omega
  have hheight : (encode (.start w h)).word.extractLsb' 0 16 = h := by
    apply BitVec.eq_of_toNat_eq
    rw [field_toNat, hword]
    omega
  exact congrArg₂ (fun w h => Except.ok (Instr.start w h)) hwidth hheight

/-- The frame of a token is that event. -/
theorem decodeEvent_frame (k : Token) : decodeEvent k.frame = .ok k.toInstr := by
  cases k with
  | byte b => exact decodeEvent_encode_byte b
  | endTok | fail => rfl

end Sys2Proof

namespace Sys2Proof.Machine

/-- A step on an event is the operation it decodes to, where that answers a next state. -/
theorem step_of_exec_next {s t : State} {f : Frame} {fs : List Frame} {i : Instr} (h : s.env.offers = f :: fs)
    (hd : decodeEvent f = .ok i) (hx : exec i (s.setOffers fs) = .next t) : step s = .next t := by
  rw [step_decoded h hd, hx, settleRead]
  nofun

/-- The operations of the tokens, one after the other, stopping at the first fault or refusal. -/
def execTokens : List Token → State → Host.Outcome State Fault Refusal
  | [], s => .next s
  | k :: ks, s => onNext (exec k.toInstr s) (execTokens ks)

@[simp] theorem execTokens_nil (s : State) : execTokens [] s = .next s := rfl

theorem execTokens_cons {k : Token} {s t : State} (h : exec k.toInstr s = .next t) (ks : List Token) :
    execTokens (k :: ks) s = execTokens ks t := by
  rw [execTokens, h, onNext_next]

/-- Tokens that are run were run one by one. -/
theorem execTokens_cons_next {k : Token} {ks : List Token} {s u : State} (h : execTokens (k :: ks) s = .next u) :
    ∃ t, exec k.toInstr s = .next t ∧ execTokens ks t = .next u := by
  rw [execTokens] at h
  cases hk : exec k.toInstr s with
  | next t => rw [hk] at h; exact ⟨t, rfl, h⟩
  | fault r => rw [hk] at h; cases h
  | refused r => rw [hk] at h; cases h

/-- The steps on the frames of tokens are the operations of the tokens, and leave what is offered after them. -/
theorem runSteps_tokens {ks : List Token} {s t : State} (fs : List Frame) (h : execTokens ks s = .next t) :
    runSteps ks.length (s.setOffers (ks.map Token.frame ++ fs)) = .next (t.setOffers fs) := by
  induction ks generalizing s with
  | nil => cases h; rfl
  | cons k ks ih =>
    obtain ⟨u, hk, hks⟩ := execTokens_cons_next h
    have hstep : step (s.setOffers ((k :: ks).map Token.frame ++ fs)) = .next (u.setOffers (ks.map Token.frame ++ fs)) :=
      step_of_exec_next rfl (decodeEvent_frame k) (exec_setOffers hk _)
    rw [List.length_cons, runSteps_succ _ hstep]
    exact ih hks

/-- In a run that has consumed a part of a macroblock there is room for the macroblock (41_sequencer.md R103). -/
theorem MachineInvariant.hasRoom_of_phase {s : State} (hs : MachineInvariant s) (hphase : s.phase ≠ 0) :
    s.hasRoom = true := by
  have hbounded := hs.bounded
  rw [State.consumed_eq] at hbounded
  rw [State.hasRoom_iff]
  omega

/-- Under the invariant every token is run. -/
theorem MachineInvariant.execToken_next {s : State} (hs : MachineInvariant s) (k : Token) :
    ∃ t, exec k.toInstr s = .next t := by
  by_cases hrun : s.st = .run
  · cases k with
    | byte b =>
      simp only [Token.toInstr, exec, execByte, hrun, if_true]
      rcases takeByte_cases b s with ⟨-, -, h⟩ | ⟨-, -, h⟩ | ⟨-, -, h⟩ | ⟨hphase, hfull, -⟩
      · exact ⟨_, h⟩
      · exact ⟨_, h⟩
      · exact ⟨_, h⟩
      · simp [hs.hasRoom_of_phase (by simp [hphase])] at hfull
    | endTok => exact ⟨_, if_pos hrun⟩
    | fail => exact ⟨_, if_pos hrun⟩
  · exact ⟨_, exec_token_outside_run k hrun⟩

/-- Under the invariant every list of tokens is run, and the invariant holds after it. -/
theorem MachineInvariant.execTokens_next {s : State} (hs : MachineInvariant s) (ks : List Token) :
    ∃ t, execTokens ks s = .next t ∧ MachineInvariant t := by
  induction ks generalizing s with
  | nil => exact ⟨s, rfl, hs⟩
  | cons k ks ih =>
    obtain ⟨t, hk⟩ := hs.execToken_next k
    rw [execTokens_cons hk]
    exact ih ((transition_of_exec hk).keeps_invariant hs)

/-- From a state with the same block the same tokens end in the same block. -/
theorem execTokens_sameBlock {ks : List Token} {s s' t : State} (h : execTokens ks s = .next t) (hsame : SameBlock s s') :
    ∃ t', execTokens ks s' = .next t' ∧ SameBlock t t' := by
  induction ks generalizing s s' with
  | nil => cases h; exact ⟨s', rfl, hsame⟩
  | cons k ks ih =>
    obtain ⟨u, hk, hks⟩ := execTokens_cons_next h
    obtain ⟨u', hk', hsame'⟩ := exec_sameBlock hk hsame
    rw [execTokens_cons hk']
    exact ih hks hsame'

/-- The state in which a call's first token is run: the reset values, and the run begun (41_sequencer.md R91, R97). -/
def State.callStart (s : State) (w h : GeomWord) : State := s.forceReset.beginRun w h

theorem callStart_invariant (s : State) (w h : GeomWord) : MachineInvariant (s.callStart w h) :=
  (forceReset_invariant s).beginRun rfl w h

/-- Whatever came before, a call begins with the same block (20_memory.md R45). -/
theorem callStart_sameBlock (s s' : State) (w h : GeomWord) : SameBlock (s.callStart w h) (s'.callStart w h) := rfl

/-- A call runs its tokens from `callStart`, and takes every event off the offers. -/
theorem runCall_of_execTokens {s t : State} {w h : GeomWord} {toks : List Token}
    (ht : execTokens toks (s.callStart w h) = .next t) : runCall s w h toks = .next (t.setOffers []) := by
  have hreset : step (s.setOffers (callFrames w h toks)) =
      .next (s.setOffers (encode (.start w h) :: toks.map Token.frame)).forceReset := step_of_exec_next rfl rfl rfl
  have hstart : step (s.setOffers (encode (.start w h) :: toks.map Token.frame)).forceReset =
      .next ((s.callStart w h).setOffers (toks.map Token.frame)) :=
    step_of_exec_next rfl (decodeEvent_encode_start w h) rfl
  rw [runCall, runSteps_succ _ hreset, runSteps_succ _ hstart]
  simpa using runSteps_tokens [] ht

/-- The same block has the same control part and the same raster. -/
theorem SameBlock.sameControl {s t : State} (h : SameBlock s t) : SameControl s t := by
  rw [h]
  exact ⟨rfl, rfl, rfl, rfl, rfl, rfl⟩

theorem SameBlock.raster_eq {s t : State} (h : SameBlock s t) : s.raster = t.raster := by
  rw [h]

/-- Settles O59: the call begins with the same block from both states, and equal tokens keep equal blocks equal. -/
theorem aCallDoesNotDependOnHistory : Obligations.ACallDoesNotDependOnHistory := by
  intro s s' w h toks
  obtain ⟨t, ht, -⟩ := (callStart_invariant s w h).execTokens_next toks
  obtain ⟨t', ht', hsame⟩ := execTokens_sameBlock ht (callStart_sameBlock s s' w h)
  exact ⟨_, _, runCall_of_execTokens ht, runCall_of_execTokens ht', hsame.sameControl, fun a => by
    rw [State.setOffers_raster, State.setOffers_raster, hsame.raster_eq]⟩

end Sys2Proof.Machine
end

section
/-! SUPPORT. The six bytes of one macroblock (20_memory.md R31, 30_encoding.md R51, R66). -/

namespace Sys2Proof

/-- The six tokens of a macroblock, in wire order (30_encoding.md R51). -/
def Macroblock.tokens (q : Macroblock) : List Token := [.byte q.y0, .byte q.y1, .byte q.y2, .byte q.y3, .byte q.cb, .byte q.cr]

theorem scriptFrames_mbLines (q : Macroblock) : scriptFrames (mbLines q) = q.tokens.map Token.frame := rfl

end Sys2Proof

namespace Sys2Proof.Machine

/-- One of the first five bytes, in a run that differs from `s` in registers and `PHASE` alone. -/
theorem execTokens_store_byte {s : State} (hrun : s.st = .run) (hroom : s.hasRoom = true) (m : Macroblock) {p : Fin 6}
    (hp : p ≠ 5) (b : Byte) (ks : List Token) :
    execTokens (.byte b :: ks) { s with mb := m, phase := p } =
      execTokens ks { s with mb := m.set p b, phase := p + 1 } :=
  have hstore := (Transition.store (s := { s with mb := m, phase := p }) b hrun hp fun _ => hroom).exec_eq
  execTokens_cons (k := .byte b) hstore ks

/-- On a boundary with room, the six tokens of a macroblock fill the registers with it, write its twelve bytes and move to the
next boundary. -/
theorem execTokens_macroblock {s : State} (q : Macroblock) (hrun : s.st = .run) (hphase : s.phase = 0)
    (hroom : s.hasRoom = true) :
    execTokens q.tokens s =
      .next { s with mb := q, phase := 0, mbi := s.mbi + 1, raster := writeMacroblock s.mbi.toNat q s.raster } := by
  have hstart : s = { s with mb := s.mb, phase := 0 } := by rw [← hphase]
  have hlast := (Transition.complete (s := { s with mb := { q with cr := s.mb.cr }, phase := 5 }) q.cr hrun rfl hroom).exec_eq
  conv_lhs => rw [hstart, Macroblock.tokens]
  iterate 5 refine (execTokens_store_byte hrun hroom _ (by decide) _ _).trans ?_
  exact execTokens_cons (k := .byte q.cr) hlast []

/-- Settles O52: the six steps are the six tokens, whose twelve writes are those of `MB4` on the macroblock. -/
theorem sixBytesAreOneMacroblock : Obligations.SixBytesAreOneMacroblock := by
  intro s q fs hrun hphase hfits hoffers
  have hroom : s.hasRoom = true := (State.hasRoom_iff s).mpr hfits
  have hpresented : s = s.setOffers (q.tokens.map Token.frame ++ fs) := by
    rw [← scriptFrames_mbLines, ← hoffers]
    rfl
  have hsteps := runSteps_tokens fs (execTokens_macroblock q hrun hphase hroom)
  rw [← hpresented] at hsteps
  refine ⟨_, _, hsteps, exec_mb4_of_room hrun hroom, ?_, ?_⟩
  · rw [hphase]
    rfl
  · show 6 * (s.mbi + 1).toNat + 0 = s.consumed + 6
    rw [State.consumed_eq, mbi_succ_toNat hroom, hphase, Fin.val_zero]
    omega

end Sys2Proof.Machine
end

section
/-! SUPPORT. Encoding and decoding are inverse (30_encoding.md sections 1 to 4): where the fields of a word stand, and that a
word that fits its port's format is made of its fields. -/

namespace Sys2Proof

/-- A field of a word of any format holds `v` when its number does. -/
theorem extractLsb'_eq_of_toNat {n lo len : Nat} {x : BitVec n} {v : BitVec len}
    (h : x.toNat / 2 ^ lo % 2 ^ len = v.toNat) : x.extractLsb' lo len = v := by
  apply BitVec.eq_of_toNat_eq
  rw [BitVec.extractLsb'_toNat, Nat.shiftRight_eq_div_pow, h]

/-- An encoded word has no bit above the width of its format. -/
theorem encode_fits {i : Instr} (h : WellFormed i) : (encode i).word.toNat < 2 ^ (encode i).port.bits := by
  cases i with
  | reset => exact Laws.EncodedWord.reset h
  | start w g => exact Laws.EncodedWord.start w g h
  | byte b => exact Laws.EncodedWord.byte b h
  | endTok => exact Laws.EncodedWord.endTok h
  | fail => exact Laws.EncodedWord.fail h
  | mb4 y0 y1 y2 y3 cb cr => exact Laws.EncodedWord.mb4 y0 y1 y2 y3 cb cr h
  | rec601 y cb cr => exact Laws.EncodedWord.rec601 y cb cr h
  | rd a => exact Laws.EncodedWord.rd a h

/-! ## Formats M, F and X -/

theorem encode_mb4_fields (y0 y1 y2 y3 cb cr : Byte) :
    let x := (encode (.mb4 y0 y1 y2 y3 cb cr)).word
    x.extractLsb' 40 8 = y0 ∧ x.extractLsb' 32 8 = y1 ∧ x.extractLsb' 24 8 = y2 ∧ x.extractLsb' 16 8 = y3 ∧
      x.extractLsb' 8 8 = cb ∧ x.extractLsb' 0 8 = cr := by
  have hword := encode_mb4_toNat y0 y1 y2 y3 cb cr
  refine ⟨?_, ?_, ?_, ?_, ?_, ?_⟩ <;> exact extractLsb'_eq_of_toNat (by omega)

theorem encode_rec601_fields (y cb cr : Byte) :
    let x := (encode (.rec601 y cb cr)).word
    x.extractLsb' 16 8 = y ∧ x.extractLsb' 8 8 = cb ∧ x.extractLsb' 0 8 = cr := by
  have hword := encode_rec601_toNat y cb cr
  refine ⟨?_, ?_, ?_⟩ <;> exact extractLsb'_eq_of_toNat (by omega)

theorem Pixel.toWord_fields (x : Pixel) :
    x.toWord.extractLsb' 16 8 = x.r ∧ x.toWord.extractLsb' 8 8 = x.g ∧ x.toWord.extractLsb' 0 8 = x.b := by
  have hword : x.toWord.toNat = (x.r.toNat * 256 + x.g.toNat) * 256 + x.b.toNat := by
    rw [Pixel.toWord, append_byte_toNat, append_byte_toNat]
  refine ⟨?_, ?_, ?_⟩ <;> exact extractLsb'_eq_of_toNat (by omega)

/-- Every word of format M is the macroblock of its fields (R61). -/
theorem encode_mb4_of_word (x : BitVec 48) :
    encode (.mb4 (x.extractLsb' 40 8) (x.extractLsb' 32 8) (x.extractLsb' 24 8) (x.extractLsb' 16 8) (x.extractLsb' 8 8)
      (x.extractLsb' 0 8)) = ⟨.lanes, x⟩ := by
  refine congrArg (Frame.mk .lanes) (BitVec.eq_of_toNat_eq ((encode_mb4_toNat _ _ _ _ _ _).trans ?_))
  simp only [field_toNat]
  omega

/-- Every word of format F is the triple of its fields (R61). -/
theorem encode_rec601_of_word {x : BitVec 48} (h : x.toNat < 2 ^ 24) :
    encode (.rec601 (x.extractLsb' 16 8) (x.extractLsb' 8 8) (x.extractLsb' 0 8)) = ⟨.converter, x⟩ := by
  refine congrArg (Frame.mk .converter) (BitVec.eq_of_toNat_eq ((encode_rec601_toNat _ _ _).trans ?_))
  simp only [field_toNat]
  omega

/-! ## Formats S and A -/

theorem decode_encode_start (w h : GeomWord) : decode (encode (.start w h)) = .ok (.start w h) :=
  (decodeEvent_ok_iff.mp (decodeEvent_encode_start w h)).2

/-- The fields of format S stand where the decoder reads them. -/
theorem encode_start_fields (w h : GeomWord) :
    (encode (.start w h)).word.extractLsb' 16 16 = w ∧ (encode (.start w h)).word.extractLsb' 0 16 = h :=
  Instr.start.inj (Except.ok.inj (fits_of_decode (decode_encode_start w h)).2)

theorem encode_start_of_word {x : BitVec 48} (h : x.toNat < 2 ^ 32) :
    encode (.start (x.extractLsb' 16 16) (x.extractLsb' 0 16)) = ⟨.control, x⟩ := by
  refine congrArg (Frame.mk .control) (BitVec.eq_of_toNat_eq ((encode_start_toNat _ _).trans ?_))
  simp only [field_toNat, Config.geomBits]
  omega

/-- Every word of format A is the offset it spells. -/
theorem encode_rd_of_word (x : BitVec 48) : encode (.rd x.toNat) = ⟨.raster, x⟩ :=
  congrArg (Frame.mk .raster) ((BitVec.ofNat_toNat 48 x).trans (BitVec.setWidth_eq x))

/-! ## Format T: the kind in bits 9:8, the data byte in bits 7:0 (R53) -/

theorem token_word_fields (k : BitVec 2) (d : Byte) :
    ((k ++ d).setWidth 48 : BitVec 48).extractLsb' 8 2 = k ∧ ((k ++ d).setWidth 48 : BitVec 48).extractLsb' 0 8 = d := by
  have hword := token_word_toNat k d
  constructor <;> exact extractLsb'_eq_of_toNat (by omega)

/-- The bits above the data byte hold the kind and nothing else. -/
theorem token_word_above_data (k : BitVec 2) (d : Byte) :
    ((k ++ d).setWidth 48 : BitVec 48).extractLsb' 8 40 = k.setWidth 40 := by
  apply extractLsb'_eq_of_toNat
  rw [token_word_toNat, BitVec.toNat_setWidth]
  omega

/-- A word of format T is a kind and a data byte. -/
theorem exists_token_of_word {x : BitVec 48} (h : x.toNat < 2 ^ 10) :
    ∃ (k : BitVec 2) (d : Byte), x = (k ++ d).setWidth 48 := by
  refine ⟨x.extractLsb' 8 2, x.extractLsb' 0 8, BitVec.eq_of_toNat_eq ?_⟩
  rw [token_word_toNat, field_toNat, field_toNat]
  omega

/-- What a token of any kind decodes to. -/
theorem decode_token (k : BitVec 2) (d : Byte) :
    decode ⟨.stream, (k ++ d).setWidth 48⟩ =
      if k = 0 then .ok (.byte d) else if k = 1 then .ok .endTok else if k = 2 then .ok .fail
      else .error .reservedTokenKind := by
  obtain ⟨hkind, hdata⟩ := token_word_fields k d
  have hfits : ((k ++ d).setWidth 48 : BitVec 48).toNat < 2 ^ 10 := by
    rw [token_word_toNat]
    omega
  rw [decode_of_fits hfits, decodeWord, decodeToken, hkind, hdata]

theorem encode_byte_eq_token (b : Byte) : encode (.byte b) = ⟨.stream, (0b00#2 ++ b).setWidth 48⟩ := by
  refine congrArg (Frame.mk .stream) (BitVec.eq_of_toNat_eq ((encode_byte_toNat b).trans ?_))
  rw [token_word_toNat]
  simp

theorem encode_endTok_eq_token : encode .endTok = ⟨.stream, (0b01#2 ++ 0#8).setWidth 48⟩ := rfl

theorem encode_fail_eq_token : encode .fail = ⟨.stream, (0b10#2 ++ 0#8).setWidth 48⟩ := rfl

/-! ## The round trips -/

/-- Settles O1: the word fits its format, and the decoder reads every field where the encoder put it. -/
theorem decodeOfEncodeIsTheOperation : Obligations.DecodeOfEncodeIsTheOperation := by
  intro i hi
  have hword := decode_of_fits (encode_fits hi)
  cases i with
  | reset | endTok | fail => rfl
  | start w h => exact decode_encode_start w h
  | byte b => exact encode_byte_eq_token b ▸ decode_token 0 b
  | mb4 y0 y1 y2 y3 cb cr =>
    obtain ⟨h0, h1, h2, h3, hcb, hcr⟩ := encode_mb4_fields y0 y1 y2 y3 cb cr
    rw [hword, show (encode (.mb4 y0 y1 y2 y3 cb cr)).port = .lanes from rfl, decodeWord, h0, h1, h2, h3, hcb, hcr]
  | rec601 y cb cr =>
    obtain ⟨hy, hcb, hcr⟩ := encode_rec601_fields y cb cr
    rw [hword, show (encode (.rec601 y cb cr)).port = .converter from rfl, decodeWord, hy, hcb, hcr]
  | rd a =>
    rw [hword, show (encode (.rd a)).port = .raster from rfl, decodeWord, encode_rd_toNat (wellFormed_rd.mp hi)]

/-- Settles O2: on every port a word that fits is made of its fields; of an `END` or a `FAIL` the kind alone is kept. -/
theorem encodeOfDecodeIsTheFrame : Obligations.EncodeOfDecodeIsTheFrame := by
  rintro ⟨port, x⟩ i h
  obtain ⟨hfits, hword⟩ := fits_of_decode h
  cases port with
  | resetInput =>
    simp only [decodeWord] at hword
    split at hword <;> cases hword
    subst x
    exact ⟨rfl, rfl, .inl rfl⟩
  | stream =>
    obtain ⟨k, d, rfl⟩ := exists_token_of_word hfits
    rw [decode_token] at h
    split_ifs at h with hbyte hend hfail <;> cases h
    · exact ⟨rfl, rfl, .inl (hbyte ▸ encode_byte_eq_token d)⟩
    · refine ⟨rfl, rfl, .inr ⟨.inl rfl, ?_⟩⟩
      rw [encode_endTok_eq_token, token_word_above_data, token_word_above_data, hend]
      rfl
    · refine ⟨rfl, rfl, .inr ⟨.inr rfl, ?_⟩⟩
      rw [encode_fail_eq_token, token_word_above_data, token_word_above_data, hfail]
      rfl
  | converter => cases hword; exact ⟨rfl, rfl, .inl (encode_rec601_of_word hfits)⟩
  | control => cases hword; exact ⟨rfl, rfl, .inl (encode_start_of_word hfits)⟩
  | raster => cases hword; exact ⟨wellFormed_rd.mpr hfits, rfl, .inl (encode_rd_of_word x)⟩
  | lanes => cases hword; exact ⟨rfl, rfl, .inl (encode_mb4_of_word x)⟩

/-- The byte string of a frame that fits its format stands for that frame (log 11). -/
theorem Frame.ofBytes_toBytes {f : Frame} (h : f.word.toNat < 2 ^ f.port.bits) : Frame.ofBytes f.toBytes = .ok f := by
  have hbytes : 2 ^ f.port.bits ≤ 256 ^ ((f.port.bits + 7) / 8) := by cases f.port <;> decide
  rw [Frame.ofBytes, Frame.toBytes, bytesOfWord_length, Port.ofBytes_bits,
    wordOfBytes_bytesOfWord _ _ (h.trans_le hbytes), BitVec.ofNat_toNat, BitVec.setWidth_eq]

/-- Settles O3: the byte string gives the frame back, and the frame the operation. -/
theorem byteStringsRoundTrip : Obligations.ByteStringsRoundTrip := by
  intro i hi
  rw [decodeBytes, Frame.ofBytes_toBytes (encode_fits hi)]
  exact decodeOfEncodeIsTheOperation i hi

end Sys2Proof
end

section
/-! SUPPORT. The words the spec writes out, the places of the fields, the token kinds, and de-biasing. -/

namespace Sys2Proof

/-- A frame that is the frame of an operation decodes to it. -/
theorem decode_of_encode_eq {f : Frame} {i : Instr} (h : encode i = f) (hi : WellFormed i) : decode f = .ok i :=
  h ▸ decodeOfEncodeIsTheOperation i hi

/-- Settles O4: each word is the one the operation is sent as. -/
theorem wordsOfTheSpecDecode : Obligations.WordsOfTheSpecDecode := by
  refine ⟨?_, ?_, ?_, ?_, ?_, ?_, ?_, ?_⟩ <;> exact decode_of_encode_eq rfl rfl

/-- Settles O5: format by format. -/
theorem formatFieldsStandWhereTheSpecPutsThem : Obligations.FormatFieldsStandWhereTheSpecPutsThem := by
  refine ⟨rfl, fun w h => ⟨rfl, encode_start_fields w h⟩, fun k => ⟨by cases k <;> rfl, ?_, ?_, ?_⟩,
    fun y0 y1 y2 y3 cb cr => ⟨rfl, encode_mb4_fields y0 y1 y2 y3 cb cr⟩,
    fun y cb cr => ⟨rfl, encode_rec601_fields y cb cr⟩, fun a ha => ⟨rfl, encode_rd_toNat ha⟩, Pixel.toWord_fields, rfl⟩
  · rintro b rfl
    rw [show Token.frame (.byte b) = encode (.byte b) from rfl, encode_byte_eq_token]
    exact token_word_fields 0b00#2 b
  · rintro rfl
    exact (token_word_fields 0b01#2 0#8).1
  · rintro rfl
    exact (token_word_fields 0b10#2 0#8).1

/-- Settles O6: one branch of the decoder for each kind. -/
theorem tokenKindsAreReadFromBits9And8 : Obligations.TokenKindsAreReadFromBits9And8 :=
  fun d => ⟨decode_token 0 d, decode_token 1 d, decode_token 2 d, decode_token 3 d⟩

end Sys2Proof

namespace Sys2Proof.Machine

/-- Frames of one port that decode alike give the same step. -/
theorem step_congr_decode {f g : Frame} (h : decode f = decode g) (hport : f.port = g.port) (s : State)
    (fs : List Frame) : step (s.setOffers (f :: fs)) = step (s.setOffers (g :: fs)) := by
  have hevent : decodeEvent f = decodeEvent g := by rw [decodeEvent, decodeEvent, hport, h]
  cases hg : decodeEvent g with
  | ok i => exact (step_decoded rfl (hevent.trans hg)).trans (step_decoded (s := s.setOffers (g :: fs)) rfl hg).symm
  | error r => exact (step_undecodable rfl (hevent.trans hg)).trans (step_undecodable rfl hg).symm

/-- Settles O7: the step sees of a token what it decodes to. -/
theorem reservedTokenKindIsRefused : Obligations.ReservedTokenKindIsRefused := by
  have hkinds := tokenKindsAreReadFromBits9And8
  refine ⟨fun s d fs hoffers => ?_, fun s d e fs => ?_⟩
  · obtain ⟨-, -, -, hreserved⟩ := hkinds d
    exact step_undecodable hoffers ((decodeEvent_of_host rfl).trans hreserved)
  · obtain ⟨-, hend, hfail, -⟩ := hkinds d
    obtain ⟨-, hend', hfail', -⟩ := hkinds e
    exact ⟨step_congr_decode (hend.trans hend'.symm) rfl s fs, step_congr_decode (hfail.trans hfail'.symm) rfl s fs⟩

/-- Settles O8: inverting the top bit subtracts 128. -/
theorem debiasIsTheByteWithItsTopBitInverted : Obligations.DebiasIsTheByteWithItsTopBitInverted :=
  fun c => ⟨rfl, (toInt_xor_top_bit c).symm, debias_bounds c⟩

end Sys2Proof.Machine
end

section
/-! SUPPORT. The scaled numerators (40_converter.md R72 to R74) as linear forms of their bytes, and where they are exact
multiples of the scale. -/

namespace Sys2Proof.Machine

theorem eq_of_debias_eq {b c : Byte} (h : debias b = debias c) : b = c := by
  unfold debias at h
  exact BitVec.eq_of_toNat_eq (by omega)

theorem numRed_linear (y cr : Byte) : numRed y cr = 100000 * (y.toNat : Int) + 140200 * ((cr.toNat : Int) - 128) := rfl

theorem numGreen_linear (y cb cr : Byte) :
    numGreen y cb cr = 100000 * (y.toNat : Int) - 34414 * ((cb.toNat : Int) - 128) - 71414 * ((cr.toNat : Int) - 128) := rfl

theorem numBlue_linear (y cb : Byte) : numBlue y cb = 100000 * (y.toNat : Int) + 177200 * ((cb.toNat : Int) - 128) := rfl

/-- With opposite chroma the two green coefficients leave their difference. -/
theorem numGreen_of_opposite_chroma (y : Byte) {cb cr : Byte} {d : Int} (hcb : debias cb = d) (hcr : debias cr = -d) :
    numGreen y cb cr = 100000 * (y.toNat : Int) + 37000 * d := by
  simp only [numGreen, hcb, hcr, scale, kGcb, kGcr, luma]
  omega

theorem numRed_neutral (y : Byte) : numRed y 128 = 100000 * (y.toNat : Int) := Int.add_zero _

theorem numGreen_neutral (y : Byte) : numGreen y 128 128 = 100000 * (y.toNat : Int) := by
  rw [numGreen_of_opposite_chroma y (d := 0) rfl rfl]
  omega

theorem numBlue_neutral (y : Byte) : numBlue y 128 = 100000 * (y.toNat : Int) := Int.add_zero _

/-- Both green coefficients are 414 modulo 1000, so a multiple of the scale has 500 dividing the sum of the two chroma
values, and that sum is too small for any multiple but 0. -/
theorem debias_add_eq_zero_of_dvd_numGreen {y cb cr : Byte} (h : (100000 : Int) ∣ numGreen y cb cr) :
    debias cb + debias cr = 0 := by
  obtain ⟨hcblo, hcbhi⟩ := debias_bounds cb
  obtain ⟨hcrlo, hcrhi⟩ := debias_bounds cr
  have hsum : (500 : Int) ∣ debias cb + debias cr := by
    simp only [numGreen, scale, kGcb, kGcr] at h
    omega
  omega

/-- Settles O9, from the bounds and the linear forms. -/
theorem redAndBlueNumerators : Obligations.RedAndBlueNumerators := by
  refine ⟨fun y cr => ⟨numRed_linear y cr, numRed_bounds y cr⟩, fun y cb => ⟨numBlue_linear y cb, numBlue_bounds y cb⟩,
    by decide, by decide, fun y => ⟨numRed_neutral y, numBlue_neutral y⟩, fun y cb cr => ?_⟩
  obtain ⟨hrlo, hrhi⟩ := numRed_bounds y cr
  obtain ⟨hglo, hghi⟩ := numGreen_bounds y cb cr
  obtain ⟨hblo, hbhi⟩ := numBlue_bounds y cb
  exact ⟨abs_le.mpr ⟨by omega, hrhi.trans (by decide)⟩, abs_le.mpr ⟨by omega, hghi.trans (by decide)⟩,
    abs_le.mpr ⟨by omega, hbhi⟩⟩

/-- Settles O10: an exact multiple has opposite chroma, where the numerator is exact at a chroma of 0, -100 and 100 only. -/
theorem greenNumeratorAndItsExactValues : Obligations.GreenNumeratorAndItsExactValues := by
  refine ⟨fun y cb cr => ⟨numGreen_linear y cb cr, numGreen_bounds y cb cr⟩, by decide,
    fun y => ⟨numGreen_neutral y, ?_, ?_⟩, fun y cb cr hdvd => ?_⟩
  · rw [numGreen_of_opposite_chroma y (d := -100) rfl rfl]
    omega
  · rw [numGreen_of_opposite_chroma y (d := 100) rfl rfl]
    omega
  · have hzero := debias_add_eq_zero_of_dvd_numGreen hdvd
    have hopposite : debias cr = -debias cb := by omega
    rw [numGreen_of_opposite_chroma y rfl hopposite] at hdvd
    obtain ⟨hcblo, hcbhi⟩ := debias_bounds cb
    have hcb : debias cb = 0 ∨ debias cb = -100 ∨ debias cb = 100 := by omega
    rcases hcb with hcb | hcb | hcb <;> rw [hcb] at hopposite
    · exact .inl ⟨eq_of_debias_eq hcb, eq_of_debias_eq hopposite⟩
    · exact .inr (.inl ⟨eq_of_debias_eq hcb, eq_of_debias_eq hopposite⟩)
    · exact .inr (.inr ⟨eq_of_debias_eq hcb, eq_of_debias_eq hopposite⟩)

end Sys2Proof.Machine
end

section
/-! SUPPORT. Division and clamp (40_converter.md R75, R76, R80, R81), over the integers and over the rationals, and the
converter as the real-valued transform (R77, R78). -/

namespace Sys2Proof.Machine

theorem clamp255_toNat_of_byte (y : Byte) : clamp255 y.toNat = y := by
  have hy := y.isLt
  have hvalue := clamp255_toNat y.toNat
  exact BitVec.eq_of_toNat_eq (by omega)

theorem divScale_mul (q : Int) : divScale (100000 * q) = q := Int.mul_ediv_cancel_left q (by decide)

theorem divScale_bounds {k : Int} (hlo : -22681600 ≤ k) (hhi : k ≤ 48004400) : -227 ≤ divScale k ∧ divScale k ≤ 480 := by
  rw [divScale_eq]
  omega

/-- R80: the floor is monotone and keeps the integers 0 and 255. -/
theorem floor_clamp (v : ℚ) : ⌊max 0 (min 255 v)⌋ = max 0 (min 255 ⌊v⌋) := by
  rw [Int.floor_mono.map_max, Int.floor_mono.map_min, Int.floor_zero, Int.floor_ofNat]

theorem clamp255_floor (v : ℚ) : ((clamp255 ⌊v⌋).toNat : Int) = ⌊max 0 (min 255 v)⌋ := by
  rw [clamp255_toNat, floor_clamp]

theorem floor_div_scale (k : Int) : ⌊(k : ℚ) / 100000⌋ = divScale k := Rat.floor_intCast_div_natCast k 100000

/-- A channel is its rational value, clamped and then truncated. -/
theorem clamp255_divScale_of_eq {v : ℚ} {k : Int} (h : v = (k : ℚ) / 100000) :
    ((clamp255 (divScale k)).toNat : Int) = ⌊max 0 (min 255 v)⌋ := by
  rw [h, ← clamp255_floor, floor_div_scale]

/-- Settles O11, from the division with remainder and the value of the clamp. -/
theorem divisionIsFloorAndClampIsPerValue : Obligations.DivisionIsFloorAndClampIsPerValue := by
  refine ⟨fun n => ?_, by decide, fun q => ?_⟩
  · rw [divScale_eq]
    omega
  · rw [clamp255_toNat]
    omega

/-- Settles O12: R81 at the scale. -/
theorem floorAndTruncatingDivisionGiveOneByte : Obligations.FloorAndTruncatingDivisionGiveOneByte :=
  fun n => (clamp255_tdiv n (by decide)).symm

/-- Settles O13: a rational's floor is the floor quotient of its numerator by its denominator. -/
theorem clampAndTruncateCommute : Obligations.ClampAndTruncateCommute := by
  refine fun v => ⟨clamp255_floor v, ?_⟩
  have hden : (0 : Int) < v.den := Int.natCast_pos.mpr v.pos
  rw [clamp255_tdiv v.num hden, Rat.floor_def']

/-- Settles O14: the rational channels are the numerators over the scale, and each byte follows from its numerator. -/
theorem rec601IsTheRealTransform : Obligations.Rec601IsTheRealTransform := by
  intro y cb cr cb' cr' r g b
  have hr : r = (numRed y cr : ℚ) / 100000 := by
    simp only [r, cr', numRed_linear]
    push_cast
    ring
  have hg : g = (numGreen y cb cr : ℚ) / 100000 := by
    simp only [g, cb', cr', numGreen_linear]
    push_cast
    ring
  have hb : b = (numBlue y cb : ℚ) / 100000 := by
    simp only [b, cb', numBlue_linear]
    push_cast
    ring
  exact ⟨hr, hg, hb, clamp255_divScale_of_eq hr, clamp255_divScale_of_eq hg, clamp255_divScale_of_eq hb⟩

/-- Neutral chroma gives grey. -/
theorem rec601_neutral (y : Byte) : rec601 y 128 128 = ⟨y, y, y⟩ := by
  simp only [rec601, numRed_neutral, numGreen_neutral, numBlue_neutral, divScale_mul, clamp255_toNat_of_byte]

/-- Settles O17: the operation is the hand-back of the pixel. -/
theorem rec601HandsBackThePixel : Obligations.Rec601HandsBackThePixel :=
  ⟨fun _ _ _ _ => ⟨rfl, rfl⟩, rec601_neutral, by decide⟩

end Sys2Proof.Machine
end

section
/-! SUPPORT. The accumulator's products and partial sums (40_converter.md R82): each is the exact integer reduced to `n` bits,
and each exact integer fits 27 signed bits. -/

namespace Sys2Proof.Machine

theorem scale_mul_luma_bounds (y : Byte) : 0 ≤ scale * luma y ∧ scale * luma y ≤ 25500000 := by
  have := luma_bounds y
  simp only [scale]
  omega

/-- A product is bounded by the coefficient times the extremes of the chroma. -/
theorem mul_debias_bounds {k : Int} (hk : 0 ≤ k) (c : Byte) : k * -128 ≤ k * debias c ∧ k * debias c ≤ k * 127 :=
  (debias_bounds c).imp (Int.mul_le_mul_of_nonneg_left · hk) (Int.mul_le_mul_of_nonneg_left · hk)

theorem accConst_mul_accLuma (n : Nat) (k : Int) (y : Byte) : accConst n k * accLuma n y = BitVec.ofInt n (k * luma y) := by
  rw [accConst, accLuma_eq, BitVec.ofInt_mul]

theorem accConst_mul_accChroma (n : Nat) (k : Int) (c : Byte) :
    accConst n k * accChroma n c = BitVec.ofInt n (k * debias c) := by
  rw [accConst, accChroma_eq, BitVec.ofInt_mul]

theorem accRed_exact {n : Nat} (hn : 27 ≤ n) (y cr : Byte) : (accRed n y cr).toInt = numRed y cr := by
  obtain ⟨hlo, hhi⟩ := numRed_bounds y cr
  rw [accRed_eq, toInt_ofInt_of_27_bits hn (by omega) (by omega)]

theorem accGreen_exact {n : Nat} (hn : 27 ≤ n) (y cb cr : Byte) : (accGreen n y cb cr).toInt = numGreen y cb cr := by
  obtain ⟨hlo, hhi⟩ := numGreen_bounds y cb cr
  rw [accGreen_eq, toInt_ofInt_of_27_bits hn (by omega) (by omega)]

/-- Green's products may be subtracted in either order. -/
theorem accGreen_red_first_exact {n : Nat} (hn : 27 ≤ n) (y cb cr : Byte) :
    (accConst n scale * accLuma n y - accConst n kGcr * accChroma n cr - accConst n kGcb * accChroma n cb).toInt =
      numGreen y cb cr := by
  rw [sub_right_comm]
  exact accGreen_exact hn y cb cr

/-- Green's products may be added first. -/
theorem accGreen_chroma_first_exact {n : Nat} (hn : 27 ≤ n) (y cb cr : Byte) :
    (accConst n scale * accLuma n y - (accConst n kGcb * accChroma n cb + accConst n kGcr * accChroma n cr)).toInt =
      numGreen y cb cr := by
  rw [sub_add_eq_sub_sub]
  exact accGreen_exact hn y cb cr

theorem accBlue_exact {n : Nat} (hn : 27 ≤ n) (y cb : Byte) : (accBlue n y cb).toInt = numBlue y cb := by
  obtain ⟨hlo, hhi⟩ := numBlue_bounds y cb
  rw [accBlue_eq, toInt_ofInt_of_27_bits hn (by omega) (by omega)]

/-- Settles O15: products and partial sums are reductions of exact integers, all of which fit. -/
theorem accumulatorOf27BitsNeverOverflows : Obligations.AccumulatorOf27BitsNeverOverflows := by
  intro n hn y cb cr
  have hy := scale_mul_luma_bounds y
  have hrcr : -17945600 ≤ kRcr * debias cr ∧ kRcr * debias cr ≤ 17805400 := mul_debias_bounds (by decide) cr
  have hgcb : -4404992 ≤ kGcb * debias cb ∧ kGcb * debias cb ≤ 4370578 := mul_debias_bounds (by decide) cb
  have hgcr : -9140992 ≤ kGcr * debias cr ∧ kGcr * debias cr ≤ 9069578 := mul_debias_bounds (by decide) cr
  have hbcb : -22681600 ≤ kBcb * debias cb ∧ kBcb * debias cb ≤ 22504400 := mul_debias_bounds (by decide) cb
  have hred := numRed_bounds y cr
  have hgreen := numGreen_bounds y cb cr
  have hblue := numBlue_bounds y cb
  have hquot : ∀ q ∈ [divScale (numRed y cr), divScale (numGreen y cb cr), divScale (numBlue y cb)], -227 ≤ q ∧ q ≤ 480 := by
    simp only [List.forall_mem_cons, List.not_mem_nil, false_imp_iff, implies_true, and_true]
    exact ⟨divScale_bounds (by omega) (by omega), divScale_bounds (by omega) (by omega), divScale_bounds (by omega) (by omega)⟩
  refine ⟨hy, hrcr, hgcb, hgcr, hbcb, by omega, ?_, ?_, ?_, ?_, ?_, ?_, ?_, ?_, ?_, by omega, by omega, by omega,
    accRed_exact hn y cr, accGreen_exact hn y cb cr, accGreen_red_first_exact hn y cb cr,
    accGreen_chroma_first_exact hn y cb cr, accBlue_exact hn y cb, hquot⟩
  all_goals
    simp only [accConst_mul_accLuma, accConst_mul_accChroma, ← ofInt_sub, ← BitVec.ofInt_add, ← BitVec.ofInt_neg]
    exact toInt_ofInt_of_27_bits hn (by omega) (by omega)

end Sys2Proof.Machine
end

section
/-! SUPPORT. The operations one at a time (41_sequencer.md R91 to R98): each is the transition whose guard holds, with the
next state that the transition writes. -/

namespace Sys2Proof.Machine

/-- Settles O18: the two transitions of `START`. -/
theorem startBeginsARunOnlyInIdle : Obligations.StartBeginsARunOnlyInIdle :=
  fun w h _ => ⟨fun hidle => (Transition.startRun w h hidle).exec_eq, fun hst => (Transition.ignoreStart w h hst).exec_eq⟩

/-- Settles O19: the byte is one of the first five of its macroblock. -/
theorem byteOfAnUnfinishedMacroblockIsStored : Obligations.ByteOfAnUnfinishedMacroblockIsStored := by
  intro b s hrun hphase hfits
  have hstore := Transition.store b hrun hphase fun h0 => (State.hasRoom_iff s).mpr (hfits h0)
  exact ⟨_, hstore.exec_eq, fun j => Macroblock.get_set s.mb s.phase j b, phase_succ_val hphase, rfl⟩

/-- The last register is no lane's luma. -/
theorem lanePixel_set_cr (q : Macroblock) (b : Byte) (i : Fin 4) :
    lanePixel (q.set 5 b) i = rec601 (q.luma i) q.cb b := by
  fin_cases i <;> rfl

/-- Settles O20: the sixth byte completes the macroblock. -/
theorem sixthByteEmitsTheMacroblock : Obligations.SixthByteEmitsTheMacroblock := by
  intro b s hrun hphase hfits
  have hroom : s.hasRoom = true := (State.hasRoom_iff s).mpr hfits
  refine ⟨_, (Transition.complete b hrun hphase hroom).exec_eq, rfl, rfl, mbi_succ_toNat hroom, fun i c => ?_,
    writeMacroblock_read_outside _ _ _, rfl⟩
  rw [← lanePixel_set_cr]
  exact writeMacroblock_read_lane _ _ _ i c

/-- Settles O21: the byte is the first excess one. -/
theorem byteBeyondTheRasterIsTruncatedInput : Obligations.ByteBeyondTheRasterIsTruncatedInput :=
  fun b s hrun hphase hfull => (Transition.excess b hrun hphase ((State.hasRoom_false_iff s).mpr hfull)).exec_eq

theorem exec_byte_of_run {s : State} (hrun : s.st = .run) (b : Byte) : exec (.byte b) s = takeByte b s := if_pos hrun

theorem exec_mb4_of_run {s : State} (hrun : s.st = .run) (q : Macroblock) :
    exec (.mb4 q.y0 q.y1 q.y2 q.y3 q.cb q.cr) s = emitMacroblock q s := if_pos hrun

/-- At `PHASE` 5 a byte taken emits the macroblock of the registers, and advances the position if that succeeds. -/
theorem takeByte_of_last_phase {s : State} (hphase : s.phase = 5) (b : Byte) :
    takeByte b s = onNext (emitMacroblock (s.mb.set 5 b) (s.writeMb 5 b)) fun t => .next (t.setPos (s.mbi + 1) 0) := by
  simp [takeByte, hphase]

/-- Settles O22: both are `emitMacroblock` on the registers with the new `MB[5]`. -/
theorem sixthBytePerformsMb4 : Obligations.SixthBytePerformsMb4 := by
  intro b s hrun hphase
  have hmb4 : exec (.mb4 s.mb.y0 s.mb.y1 s.mb.y2 s.mb.y3 s.mb.cb b) (s.writeMb 5 b) =
      emitMacroblock (s.mb.set 5 b) (s.writeMb 5 b) := exec_mb4_of_run (s := s.writeMb 5 b) hrun (s.mb.set 5 b)
  rw [hmb4, exec_byte_of_run hrun, takeByte_of_last_phase hphase]

/-- Settles O23: the byte at `12*MBI + 3i + c` is channel `c` of lane `i`. -/
theorem mb4WritesTheTwelveBytes : Obligations.Mb4WritesTheTwelveBytes := by
  intro y0 y1 y2 y3 cb cr s hrun hfits
  have hlane := writeMacroblock_read_lane s.mbi.toNat ⟨y0, y1, y2, y3, cb, cr⟩ s.raster
  exact ⟨_, exec_mb4_of_room hrun ((State.hasRoom_iff s).mpr hfits),
    fun c => ⟨hlane 0 c, hlane 1 c, hlane 2 c, hlane 3 c⟩, writeMacroblock_read_outside _ _ _, rfl⟩

/-- Settles O24: outside `RUN` by the test of the control state, beyond `CAP` by the room test of `emitMacroblock`. -/
theorem mb4StopsOutsideARunAndOutsideTheRaster : Obligations.Mb4StopsOutsideARunAndOutsideTheRaster := by
  refine fun y0 y1 y2 y3 cb cr s => ⟨fun hst => if_neg hst, fun hrun hcap => ?_⟩
  rw [exec_mb4_of_run hrun ⟨y0, y1, y2, y3, cb, cr⟩]
  rcases emitMacroblock_cases ⟨y0, y1, y2, y3, cb, cr⟩ s with ⟨hfits, -⟩ | ⟨-, hfault⟩
  · omega
  · exact hfault

/-- Settles O25: the two transitions of an `END` in `RUN`, of which `finish` alone enters `DONE`. -/
theorem endClosesExactlyAFullRaster : Obligations.EndClosesExactlyAFullRaster := by
  refine ⟨fun s hrun => ⟨fun hphase hfull => (Transition.finish hrun hphase hfull).exec_eq,
    fun hshort => (Transition.truncate hrun hshort).exec_eq⟩, fun i s t h hdone hnew => ?_⟩
  cases transition_of_exec h with
  | finish hrun hphase hfull => exact ⟨rfl, hrun, hphase, hfull⟩
  | reset | startRun | excess | truncate | fail => cases hdone
  | _ => exact absurd hdone hnew

/-- Settles O26: `FAIL` has one transition in `RUN`, whatever the position. -/
theorem failIsUnreadableSourceAtAnyPosition : Obligations.FailIsUnreadableSourceAtAnyPosition :=
  fun _ hrun => (Transition.fail hrun).exec_eq

/-- A token that is run in `RUN` leaves the environment: it is taken (41_sequencer.md R92). -/
theorem env_of_token_in_run {k : Token} {s t : State} (h : exec k.toInstr s = .next t) (hrun : s.st = .run) :
    t.env = s.env := by
  have htransition := transition_of_exec h
  generalize hi : k.toInstr = i at htransition
  cases htransition with
  | leave _ _ hst => exact absurd hrun hst
  | rec601 | read => cases k <;> cases hi
  | _ => rfl

/-- Settles O27: the token is left, or taken. -/
theorem tokensAreTakenOnlyInRun : Obligations.TokensAreTakenOnlyInRun :=
  fun k _ => ⟨exec_token_outside_run k, fun hrun _ h => env_of_token_in_run h hrun⟩

/-- Settles O28: the reset values are forced. -/
theorem resetForcesTheResetValues : Obligations.ResetForcesTheResetValues := by
  intro s
  obtain ⟨-, hstatus, -⟩ := powerOnIsAResetState
  exact ⟨s.forceReset, rfl, ⟨rfl, rfl, rfl, rfl, rfl, rfl, Memory.read_nil⟩, hstatus, rfl⟩

/-- Where `RD` is not enabled it is refused (41_sequencer.md R98). -/
theorem exec_rd_refused {a : Nat} {s : State} (h : ¬(s.st = .done ∧ a < s.cap)) : exec (.rd a) s = .refused .readNotEnabled :=
  if_neg fun henabled => h (of_decide_eq_true henabled)

/-- Settles O30: the transition of an enabled read, and the refusal. -/
theorem readReturnsTheRasterByteOnlyInDone : Obligations.ReadReturnsTheRasterByteOnlyInDone :=
  fun a _ => ⟨fun v hdone ha hv => (Transition.read a v hdone ha hv).exec_eq, exec_rd_refused⟩

/-- Settles O31: in `DONE` the completed macroblocks are the whole raster, and every byte of them is written. -/
theorem everyByteOfADoneRasterCanBeRead : Obligations.EveryByteOfADoneRasterCanBeRead := by
  intro a s hs hdone ha
  obtain ⟨-, hfull⟩ := hs.doneExact hdone
  have hwritten : a < writePointer s.mbi.toNat := by
    rw [State.cap_eq] at ha
    rw [writePointer]
    omega
  obtain ⟨v, hv⟩ := Option.isSome_iff_exists.mp (hs.rasterWritten a hwritten)
  exact ⟨v, hv, (Transition.read a v hdone ha hv).exec_eq⟩

/-- Settles O34: with no frame to fetch the step is the state itself. -/
theorem nothingOnOfferIsAHold : Obligations.NothingOnOfferIsAHold :=
  fun _ => step_nothing

/-- Settles O35: `exec` refuses the read, and the step goes on. -/
theorem refusedReadLeavesTheBlockAlone : Obligations.RefusedReadLeavesTheBlockAlone := by
  intro s a fs ha hoffers hdisabled
  have hevent : decodeEvent (encode (.rd a)) = .ok (.rd a) :=
    (decodeEvent_of_host rfl).trans (decodeOfEncodeIsTheOperation _ (wellFormed_rd.mpr ha))
  have hrefused : exec (.rd a) (s.setOffers fs) = .refused .readNotEnabled := exec_rd_refused hdisabled
  exact ⟨_, step_of_refused_read hoffers hevent hrefused, rfl, rfl, rfl, rfl⟩

/-- Settles O41: the transitions that write `ST`. -/
theorem controlStateFollowsTheTransitionTable : Obligations.ControlStateFollowsTheTransitionTable := by
  intro i s t h hchanged
  cases transition_of_exec h with
  | reset => exact .inl ⟨rfl, rfl⟩
  | startRun w g hidle => exact .inr (.inl ⟨⟨w, g, rfl⟩, hidle, rfl⟩)
  | finish hrun hphase hfull => exact .inr (.inr (.inl ⟨rfl, hrun, hphase, hfull, rfl⟩))
  | truncate hrun => exact .inr (.inr (.inr ⟨.inl rfl, hrun, rfl⟩))
  | fail hrun => exact .inr (.inr (.inr ⟨.inr (.inl rfl), hrun, rfl⟩))
  | excess b hrun => exact .inr (.inr (.inr ⟨.inr (.inr ⟨b, rfl⟩), hrun, rfl⟩))
  | _ => exact absurd rfl hchanged

theorem State.ended.not_idle {s : State} (h : s.ended) : s.st ≠ .idle := by
  rcases h with h | h <;> simp [h]

theorem State.ended.not_run {s : State} (h : s.ended) : s.st ≠ .run := by
  rcases h with h | h <;> simp [h]

/-- Settles O42: in an ended run `START` is ignored, a token is left, and `REC601` and `RD` hand back a value. -/
theorem onlyResetLeavesAnEndedRun : Obligations.OnlyResetLeavesAnEndedRun := by
  intro i s t hended h hreset
  cases transition_of_exec h with
  | reset => exact absurd rfl hreset
  | startRun _ _ hidle => exact absurd hidle hended.not_idle
  | ignoreStart | leave | rec601 | read => exact ⟨rfl, rfl, fun _ => rfl⟩
  | excess _ hrun | store _ hrun | complete _ hrun | finish hrun | truncate hrun | fail hrun | mb4 _ _ _ _ _ _ hrun =>
    exact absurd hrun hended.not_run

end Sys2Proof.Machine
end

section
/-! SUPPORT. Noninterference (41_sequencer.md R106): what a token does to the control part depends on the control part and the
kind of the token alone. -/

namespace Sys2Proof

/-- A token with the value of its byte erased. -/
def Token.kind : Token → Token
  | .byte _ => .byte 0
  | k => k

theorem Token.kind_eq_byte {k : Token} {b : Byte} (h : k.kind = Token.kind (.byte b)) : ∃ b', k = .byte b' := by
  cases k with
  | byte b' => exact ⟨b', rfl⟩
  | endTok | fail => cases h

theorem Token.kind_eq_endTok {k : Token} (h : k.kind = .endTok) : k = .endTok := by
  cases k with
  | endTok => rfl
  | byte | fail => cases h

theorem Token.kind_eq_fail {k : Token} (h : k.kind = .fail) : k = .fail := by
  cases k with
  | fail => rfl
  | byte | endTok => cases h

end Sys2Proof

namespace Sys2Proof.Machine

/-- A state with the same control part differs in registers, raster and environment alone. -/
theorem SameControl.exists_eq {s s' : State} (h : SameControl s s') :
    ∃ m r e, s' = { s with mb := m, raster := r, env := e } := by
  cases s
  cases s'
  obtain ⟨rfl, rfl, rfl, rfl, rfl, rfl⟩ := h
  exact ⟨_, _, _, rfl⟩

theorem sameControl_with (s : State) (m : Macroblock) (r : Memory) (e : Env) :
    SameControl s { s with mb := m, raster := r, env := e } := ⟨rfl, rfl, rfl, rfl, rfl, rfl⟩

/-- Tokens of one kind take the same transition from states with the same control part. -/
theorem exec_token_sameControl {k k' : Token} (hkind : k'.kind = k.kind) {s s' t : State} (hsame : SameControl s s')
    (h : exec k.toInstr s = .next t) : ∃ t', exec k'.toInstr s' = .next t' ∧ SameControl t t' := by
  obtain ⟨m, r, e, rfl⟩ := hsame.exists_eq
  by_cases hrun : s.st = .run
  · have hrun' : State.st { s with mb := m, raster := r, env := e } = .run := hrun
    cases k with
    | byte b =>
      obtain ⟨b', rfl⟩ := Token.kind_eq_byte hkind
      cases transition_of_exec h with
      | leave _ _ hst => exact absurd hrun hst
      | excess _ _ hphase hroom => exact ⟨_, (Transition.excess b' hrun' hphase hroom).exec_eq, sameControl_with _ _ _ _⟩
      | store _ _ hphase hroom => exact ⟨_, (Transition.store b' hrun' hphase hroom).exec_eq, sameControl_with _ _ _ _⟩
      | complete _ _ hphase hroom =>
        exact ⟨_, (Transition.complete b' hrun' hphase hroom).exec_eq, sameControl_with _ _ _ _⟩
    | endTok =>
      obtain rfl := Token.kind_eq_endTok hkind
      cases transition_of_exec h with
      | leave _ _ hst => exact absurd hrun hst
      | finish _ hphase hfull => exact ⟨_, (Transition.finish hrun' hphase hfull).exec_eq, sameControl_with _ _ _ _⟩
      | truncate _ hshort => exact ⟨_, (Transition.truncate hrun' hshort).exec_eq, sameControl_with _ _ _ _⟩
    | fail =>
      obtain rfl := Token.kind_eq_fail hkind
      cases transition_of_exec h with
      | leave _ _ hst => exact absurd hrun hst
      | fail => exact ⟨_, (Transition.fail hrun').exec_eq, sameControl_with _ _ _ _⟩
  · rw [exec_token_outside_run k hrun] at h
    cases h
    exact ⟨_, exec_token_outside_run k' hrun, sameControl_with _ _ _ _⟩

/-- A sixth byte without room is the one token that is not run (log 13). -/
theorem exec_byte_of_no_room {s : State} (hrun : s.st = .run) (hphase : s.phase = 5) (hfull : s.hasRoom = false) (b : Byte) :
    exec (.byte b) s = .fault .rasterOutOfRange := by
  rw [exec_byte_of_run hrun]
  rcases takeByte_cases b s with ⟨h0, -, -⟩ | ⟨h5, -, -⟩ | ⟨-, hroom, -⟩ | ⟨-, -, h⟩
  · simp [hphase] at h0
  · exact absurd hphase h5
  · simp [hroom] at hfull
  · exact h

/-- A byte is run, but for a sixth one without room. -/
theorem exec_byte_next_or (b : Byte) (s : State) :
    (∃ t, exec (.byte b) s = .next t) ∨ (s.st = .run ∧ s.phase = 5 ∧ s.hasRoom = false) := by
  by_cases hrun : s.st = .run
  · rw [exec_byte_of_run hrun]
    rcases takeByte_cases b s with ⟨-, -, h⟩ | ⟨-, -, h⟩ | ⟨-, -, h⟩ | ⟨hphase, hfull, -⟩
    · exact .inl ⟨_, h⟩
    · exact .inl ⟨_, h⟩
    · exact .inl ⟨_, h⟩
    · exact .inr ⟨hrun, hphase, hfull⟩
  · exact .inl ⟨_, exec_token_outside_run (.byte b) hrun⟩

/-- Settles O48: two bytes are two tokens of one kind, and the guard of the fault is in the control part. -/
theorem noByteValueSteersAStep : Obligations.NoByteValueSteersAStep := by
  intro b b' s s' hsame
  rcases exec_byte_next_or b s with ⟨t, ht⟩ | ⟨hrun, hphase, hfull⟩
  · obtain ⟨t', ht', hcontrol⟩ := exec_token_sameControl (k := .byte b) (k' := .byte b') rfl hsame ht
    exact .inl ⟨t, t', ht, ht', hcontrol⟩
  · obtain ⟨m, r, e, rfl⟩ := hsame.exists_eq
    have hrun' : State.st { s with mb := m, raster := r, env := e } = .run := hrun
    exact .inr ⟨_, exec_byte_of_no_room hrun hphase hfull b, exec_byte_of_no_room hrun' hphase hfull b'⟩

/-- Token lists that agree kind by kind end with the same control part. -/
theorem execTokens_sameControl {ks ks' : List Token} (hkinds : ks'.map Token.kind = ks.map Token.kind) {s s' t : State}
    (hsame : SameControl s s') (h : execTokens ks s = .next t) :
    ∃ t', execTokens ks' s' = .next t' ∧ SameControl t t' := by
  induction ks generalizing ks' s s' with
  | nil =>
    obtain rfl := List.map_eq_nil_iff.mp hkinds
    cases h
    exact ⟨s', rfl, hsame⟩
  | cons k ks ih =>
    obtain ⟨k', ks', rfl, hkind, hrest⟩ := List.map_eq_cons_iff.mp hkinds
    obtain ⟨u, hk, hks⟩ := execTokens_cons_next h
    obtain ⟨u', hk', hsame'⟩ := exec_token_sameControl hkind hsame hk
    rw [execTokens_cons hk']
    exact ih hrest hsame' hks

/-- Settles O60: calls begin with the same block, and tokens of the same kinds keep the control part the same. -/
theorem onlyTokenKindsSteerARun : Obligations.OnlyTokenKindsSteerARun := by
  intro s s' w h toks toks' hkinds
  obtain ⟨t, ht, -⟩ := (callStart_invariant s w h).execTokens_next toks
  obtain ⟨t', ht', hsame⟩ :=
    execTokens_sameControl hkinds.symm (callStart_sameBlock s s' w h).sameControl ht
  exact ⟨_, _, runCall_of_execTokens ht, runCall_of_execTokens ht', hsame⟩

end Sys2Proof.Machine
end

section
/-! SUPPORT. How long a run lasts (41_sequencer.md R103): every token of a call is a byte consumed, the one token that ends the
run, or a token left untaken. -/

namespace Sys2Proof.Machine

/-- What every token keeps, a list of tokens keeps. -/
theorem execTokens_keeps {R : State → Prop} (hkeep : ∀ {k u v}, exec (Token.toInstr k) u = .next v → R u → R v)
    {ks : List Token} {s t : State} (h : execTokens ks s = .next t) (hs : R s) : R t := by
  induction ks generalizing s with
  | nil => cases h; exact hs
  | cons k ks ih =>
    obtain ⟨u, hk, hks⟩ := execTokens_cons_next h
    exact ih hks (hkeep hk hs)

theorem geometry_of_token {k : Token} {s t : State} (h : exec k.toInstr s = .next t) :
    t.width = s.width ∧ t.height = s.height := by
  rcases geometryHoldsDuringARun _ s t h with hsame | ⟨hi, -⟩ | ⟨w, g, hi, -⟩
  · exact hsame
  · cases k <;> cases hi
  · cases k <;> cases hi

/-- No token leads back to `IDLE`. -/
theorem not_idle_of_token {k : Token} {s t : State} (h : exec k.toInstr s = .next t) (hs : s.st ≠ .idle) : t.st ≠ .idle := by
  by_cases hchanged : t.st = s.st
  · rwa [hchanged]
  · rcases controlStateFollowsTheTransitionTable _ s t h hchanged with
      ⟨hi, -⟩ | ⟨-, hidle, -⟩ | ⟨-, -, -, -, hdone⟩ | ⟨-, -, herr⟩
    · cases k <;> cases hi
    · exact absurd hidle hs
    · simp [hdone]
    · simp [herr]

/-- The only token after which a run goes on is a byte. -/
theorem byte_of_token_in_run {k : Token} {s t : State} (h : exec k.toInstr s = .next t) (hs : s.st = .run) (ht : t.st = .run) :
    ∃ b, k = .byte b := by
  cases k with
  | byte b => exact ⟨b, rfl⟩
  | endTok =>
    cases transition_of_exec h with
    | leave _ _ hst => exact absurd hs hst
    | finish | truncate => cases ht
  | fail =>
    cases transition_of_exec h with
    | leave _ _ hst => exact absurd hs hst
    | fail => cases ht

/-- The tokens a call has gone through: the bytes consumed, the one that ended the run, and those left untaken. -/
def State.tokenCount (s : State) : Nat := s.env.untaken.length + s.consumed + if s.st = .run then 0 else 1

theorem tokenCount_of_run {s : State} (h : s.st = .run) : s.tokenCount = s.env.untaken.length + s.consumed := by
  simp [State.tokenCount, h]

theorem tokenCount_of_not_run {s : State} (h : s.st ≠ .run) : s.tokenCount = s.env.untaken.length + s.consumed + 1 := by
  simp [State.tokenCount, h]

/-- A token after which no run goes on leaves the position. -/
theorem consumed_of_token_out_of_run {k : Token} {s t : State} (h : exec k.toInstr s = .next t)
    (ht : t.st ≠ .run) : t.consumed = s.consumed := by
  have hclear : ¬(k.toInstr = .reset ∨ ((∃ w g, k.toInstr = .start w g) ∧ s.st = .idle)) := by
    cases k <;> simp [Token.toInstr]
  obtain ⟨hmbi, hphase⟩ := (transition_of_exec h).position_unchanged (fun ⟨_, _, hrun⟩ => ht hrun) hclear
  rw [State.consumed_eq, State.consumed_eq, hmbi, hphase]

/-- Every token counts once. -/
theorem tokenCount_of_token {k : Token} {s t : State} (h : exec k.toInstr s = .next t) : t.tokenCount = s.tokenCount + 1 := by
  by_cases hs : s.st = .run
  · rw [tokenCount_of_run hs]
    by_cases ht : t.st = .run
    · obtain ⟨b, rfl⟩ := byte_of_token_in_run h hs ht
      rw [tokenCount_of_run ht, env_of_token_in_run h hs, consumed_of_accepted_byte h hs ht, Nat.add_assoc]
    · rw [tokenCount_of_not_run ht, env_of_token_in_run h hs, consumed_of_token_out_of_run h ht]
  · rw [exec_token_outside_run k hs] at h
    cases h
    rw [tokenCount_of_not_run hs, tokenCount_of_not_run (s := s.leaveToken k) hs]
    rw [State.leaveToken_env, State.leaveToken_consumed, List.length_append, List.length_singleton]
    omega

theorem tokenCount_of_tokens {ks : List Token} {s t : State} (h : execTokens ks s = .next t) :
    t.tokenCount = s.tokenCount + ks.length := by
  induction ks generalizing s with
  | nil => cases h; rfl
  | cons k ks ih =>
    obtain ⟨u, hk, hks⟩ := execTokens_cons_next h
    rw [ih hks, tokenCount_of_token hk, List.length_cons]
    omega

/-- While a run goes on every token has been taken. -/
theorem env_of_tokens_in_run {ks : List Token} {s t : State} (h : execTokens ks s = .next t) (ht : t.st = .run) :
    t.env = s.env := by
  refine execTokens_keeps (R := fun u => u.st = .run → u.env = s.env) (fun {k u v} hk hu hv => ?_) h (fun _ => rfl) ht
  have hurun : u.st = .run := by
    by_contra hout
    rw [exec_token_outside_run k hout] at hk
    cases hk
    exact hout hv
  rw [env_of_token_in_run hk hurun, hu hurun]

/-- A call keeps its geometry, and is in a run or has ended it. -/
theorem geometry_of_call {s t : State} {w h : GeomWord} {toks : List Token}
    (ht : execTokens toks (s.callStart w h) = .next t) : t.width = w ∧ t.height = h ∧ t.st ≠ .idle := by
  refine execTokens_keeps (R := fun u => u.width = w ∧ u.height = h ∧ u.st ≠ .idle) ?_ ht ⟨rfl, rfl, by simp [State.callStart]⟩
  rintro k u v hk ⟨hwidth, hheight, hlive⟩
  obtain ⟨hwidth', hheight'⟩ := geometry_of_token hk
  exact ⟨hwidth'.trans hwidth, hheight'.trans hheight, not_idle_of_token hk hlive⟩

theorem npix_of_call {s t : State} {w h : GeomWord} {toks : List Token}
    (ht : execTokens toks (s.callStart w h) = .next t) : t.npix = npixOf w h := by
  obtain ⟨hwidth, hheight, -⟩ := geometry_of_call ht
  rw [State.npix, hwidth, hheight]

/-- A state that is neither before a run nor in one has ended it. -/
theorem State.ended_of_not_run {s : State} (hlive : s.st ≠ .idle) (hrun : s.st ≠ .run) : s.ended := by
  cases hst : s.st with
  | idle => exact absurd hst hlive
  | run => exact absurd hst hrun
  | done => exact .inl hst
  | err => exact .inr hst

/-- Settles O56: the invariant bounds the bytes consumed, and every other token is left untaken or ends the run. -/
theorem aRunIsBounded : Obligations.ARunIsBounded := by
  intro s w h toks
  obtain ⟨t, ht, hinv⟩ := (callStart_invariant s w h).execTokens_next toks
  obtain ⟨-, -, hlive⟩ := geometry_of_call ht
  have hcount : t.tokenCount = s.env.untaken.length + toks.length := tokenCount_of_tokens ht
  have hbounded := hinv.bounded
  rw [npix_of_call ht] at hbounded
  refine ⟨_, runCall_of_execTokens ht, hbounded, ?_, fun hlong => State.ended_of_not_run hlive fun hrun => ?_,
    fun hrest hdone => ?_⟩
  · have hends : t.tokenCount ≤ t.env.untaken.length + t.consumed + 1 := by
      rw [State.tokenCount]
      split <;> omega
    show _ ≤ t.env.untaken.length + _
    omega
  · have hrun' : t.st = .run := hrun
    have hall : t.env.untaken = s.env.untaken := by rw [env_of_tokens_in_run ht hrun']; rfl
    rw [tokenCount_of_run hrun', hall] at hcount
    omega
  · obtain ⟨-, hfull⟩ := hinv.doneExact hdone
    rw [npix_of_call ht] at hfull
    omega

end Sys2Proof.Machine
end

section
/-! SUPPORT. Refinement (41_sequencer.md R102): the machine and the loop of `Decode` (R100) go through the tokens side by side,
the loop's variables being a view of the machine's state. -/

namespace Sys2Proof

/-- The registers as the array that `Decode` keeps. -/
def Macroblock.toList (q : Macroblock) : List Byte := [q.y0, q.y1, q.y2, q.y3, q.cb, q.cr]

theorem Macroblock.toList_set (q : Macroblock) (i : Fin 6) (v : Byte) : (q.set i v).toList = q.toList.set i.val v := by
  fin_cases i <;> rfl

end Sys2Proof

namespace Sys2Proof.Machine

theorem entry_toList (q : Macroblock) (i : Fin 4) : entry q.toList i.val = q.luma i := by
  fin_cases i <;> rfl

theorem rasterBytes_nil (n : Nat) : rasterBytes [] n = List.replicate n none := by
  refine List.ext_getElem (by simp [rasterBytes]) fun a _ _ => ?_
  simp [rasterBytes]

theorem rasterBytes_length (m : Memory) (n : Nat) : (rasterBytes m n).length = n := by
  rw [rasterBytes, List.length_map, List.length_range]

theorem rasterBytes_getElem? (m : Memory) {n a : Nat} (h : a < n) : (rasterBytes m n)[a]? = some (m.read a) := by
  rw [rasterBytes, List.getElem?_map, List.getElem?_range h, Option.map_some]

/-- A write of the memory is an assignment to the array. -/
theorem rasterBytes_write (m : Memory) (n a : Nat) (v : Byte) :
    rasterBytes (m.write a v) n = (rasterBytes m n).set a (some v) := by
  refine List.ext_getElem (by simp [rasterBytes]) fun b _ _ => ?_
  simp only [rasterBytes, List.getElem_set, List.getElem_map, List.getElem_range, Memory.read_write, eq_comm]

/-- The three writes of a lane are its three assignments. -/
theorem rasterBytes_writeLane (k n : Nat) (i : Fin 4) (q : Macroblock) (m : Memory) :
    rasterBytes (writeLane k i (lanePixel q i) m) n = assignLane k i.val q.toList (rasterBytes m n) := by
  rw [writeLane, rasterBytes_write, rasterBytes_write, rasterBytes_write, assignLane, entry_toList]
  rfl

/-- `MB4` is the loop over the four lanes. -/
theorem rasterBytes_writeMacroblock (k n : Nat) (q : Macroblock) (m : Memory) :
    rasterBytes (writeMacroblock k q m) n = assignMacroblock k q.toList (rasterBytes m n) := by
  rw [writeMacroblock, rasterBytes_writeLane, rasterBytes_writeLane, rasterBytes_writeLane, rasterBytes_writeLane]
  rfl

/-- `Decode` from where the machine stands in a run. -/
def State.decodeRest (s : State) (toks : List Token) : Decoded × List Token :=
  decodeLoop s.npix toks s.mbi.toNat s.phase.val s.mb.toList (rasterBytes s.raster s.cap)

/-- A call begins where `Decode` does. -/
theorem decodeRest_callStart (s : State) (w h : GeomWord) (toks : List Token) :
    (s.callStart w h).decodeRest toks = decodeStream toks w h := by
  rw [decodeStream, ← rasterBytes_nil]
  rfl

/-- What a result of `Decode` says of the machine (R102). -/
def Decoded.Describes (d : Decoded) (t : State) : Prop :=
  match d with
  | .ok raster => t.st = .done ∧ t.err = .noError ∧ rasterBytes t.raster t.cap = raster
  | .err e => t.st = .err ∧ t.err = e
  | .unfinished => t.st = .run ∧ t.err = .noError

/-! ### One token -/

theorem phase_val_eq_five {p : Fin 6} : p.val = 5 ↔ p = 5 := ⟨fun h => Fin.ext h, congrArg Fin.val⟩

theorem decodeRest_excess {s : State} (hphase : s.phase = 0) (hfull : s.hasRoom = false) (b : Byte) (ts : List Token) :
    s.decodeRest (.byte b :: ts) = (.err .truncatedInput, ts) := by
  have hnpix := (State.hasRoom_false_iff s).mp hfull
  simp [State.decodeRest, decodeLoop, hphase, hnpix]

/-- Where the machine finds room, so does the loop. -/
theorem not_excess {s : State} (hroom : s.phase = 0 → s.hasRoom = true) :
    ¬(s.phase.val = 0 ∧ 4 * (s.mbi.toNat + 1) > s.npix) := by
  rintro ⟨h0, hfull⟩
  have := (State.hasRoom_iff s).mp (hroom (Fin.val_eq_zero_iff.mp h0))
  omega

theorem decodeRest_store {s : State} (hphase : s.phase ≠ 5) (hroom : s.phase = 0 → s.hasRoom = true) (b : Byte)
    (ts : List Token) :
    s.decodeRest (.byte b :: ts) = ((s.writeMb s.phase b).setPos s.mbi (s.phase + 1)).decodeRest ts := by
  rw [State.decodeRest, decodeLoop, if_neg (not_excess hroom), if_neg (phase_val_eq_five.not.mpr hphase),
    ← Macroblock.toList_set, ← phase_succ_val hphase]
  rfl

theorem decodeRest_complete {s : State} (hphase : s.phase = 5) (hroom : s.hasRoom = true) (b : Byte) (ts : List Token) :
    s.decodeRest (.byte b :: ts) =
      (((s.writeMb 5 b).setRaster (writeMacroblock s.mbi.toNat (s.mb.set 5 b) s.raster)).setPos (s.mbi + 1) 0).decodeRest ts := by
  rw [State.decodeRest, decodeLoop, if_neg (not_excess fun _ => hroom), if_pos (phase_val_eq_five.mpr hphase), hphase,
    ← Macroblock.toList_set, ← rasterBytes_writeMacroblock, ← mbi_succ_toNat hroom]
  rfl

theorem decodeRest_finish {s : State} (hphase : s.phase = 0) (hfull : 4 * s.mbi.toNat = s.npix) (ts : List Token) :
    s.decodeRest (.endTok :: ts) = (.ok (rasterBytes s.raster s.cap), ts) := by
  simp [State.decodeRest, decodeLoop, hphase, hfull]

theorem decodeRest_truncate {s : State} (hshort : s.phase ≠ 0 ∨ 4 * s.mbi.toNat ≠ s.npix) (ts : List Token) :
    s.decodeRest (.endTok :: ts) = (.err .truncatedInput, ts) := by
  rw [State.decodeRest, decodeLoop]
  by_cases h0 : s.phase = 0
  · rw [if_neg (by simp [h0]), if_pos (hshort.resolve_left (not_not_intro h0))]
  · rw [if_pos (Fin.val_eq_zero_iff.not.mpr h0)]

/-- A token in a run either goes on, and then `Decode` goes on from the next state, or it ends the run, and then `Decode` ends
with a result that describes the next state. -/
theorem decodeRest_token {k : Token} {s u : State} (h : exec k.toInstr s = .next u) (hrun : s.st = .run)
    (herr : s.err = .noError) (ts : List Token) :
    (u.st = .run ∧ u.err = .noError ∧ s.decodeRest (k :: ts) = u.decodeRest ts) ∨
    (u.st ≠ .run ∧ ∃ d : Decoded, d.Describes u ∧ s.decodeRest (k :: ts) = (d, ts)) := by
  cases k with
  | byte b =>
    cases transition_of_exec h with
    | leave _ _ hst => exact absurd hrun hst
    | excess _ _ hphase hfull => exact .inr ⟨nofun, .err .truncatedInput, ⟨rfl, rfl⟩, decodeRest_excess hphase hfull b ts⟩
    | store _ _ hphase hroom => exact .inl ⟨hrun, herr, decodeRest_store hphase hroom b ts⟩
    | complete _ _ hphase hroom => exact .inl ⟨hrun, herr, decodeRest_complete hphase hroom b ts⟩
  | endTok =>
    cases transition_of_exec h with
    | leave _ _ hst => exact absurd hrun hst
    | finish _ hphase hfull =>
      exact .inr ⟨nofun, .ok (rasterBytes s.raster s.cap), ⟨rfl, herr, rfl⟩, decodeRest_finish hphase hfull ts⟩
    | truncate _ hshort => exact .inr ⟨nofun, .err .truncatedInput, ⟨rfl, rfl⟩, decodeRest_truncate hshort ts⟩
  | fail =>
    cases transition_of_exec h with
    | leave _ _ hst => exact absurd hrun hst
    | fail => exact .inr ⟨nofun, .err .unreadableSource, ⟨rfl, rfl⟩, rfl⟩

/-! ### All tokens -/

/-- Outside a run every token is left untaken. -/
theorem execTokens_outside_run (ks : List Token) {s : State} (h : s.st ≠ .run) :
    execTokens ks s = .next { s with env := { s.env with untaken := s.env.untaken ++ ks } } := by
  induction ks generalizing s with
  | nil => rw [List.append_nil]; rfl
  | cons k ks ih =>
    rw [execTokens_cons (exec_token_outside_run k h), ih (s := s.leaveToken k) h]
    simp [State.leaveToken]

/-- From a run the machine ends as `Decode` does, and leaves untaken the tokens that `Decode` does not look at. -/
theorem execTokens_refines_decode {ks : List Token} {s t : State} (h : execTokens ks s = .next t) (hrun : s.st = .run)
    (herr : s.err = .noError) :
    t.env.untaken = s.env.untaken ++ (s.decodeRest ks).2 ∧ (s.decodeRest ks).1.Describes t := by
  induction ks generalizing s with
  | nil =>
    cases h
    exact ⟨(List.append_nil _).symm, hrun, herr⟩
  | cons k ks ih =>
    obtain ⟨u, hk, hks⟩ := execTokens_cons_next h
    rw [← env_of_token_in_run hk hrun]
    rcases decodeRest_token hk hrun herr ks with ⟨hurun, huerr, hdecode⟩ | ⟨hout, d, hd, hdecode⟩ <;> rw [hdecode]
    · exact ih hks hurun huerr
    · rw [execTokens_outside_run ks hout] at hks
      cases hks
      exact ⟨rfl, hd⟩

/-- Settles O53: `Decode` begins where the call does. -/
theorem machineAgreesWithDecode : Obligations.MachineAgreesWithDecode := by
  intro s w h toks
  obtain ⟨t, ht, -⟩ := (callStart_invariant s w h).execTokens_next toks
  obtain ⟨hwidth, hheight, -⟩ := geometry_of_call ht
  obtain ⟨huntaken, hdescribes⟩ := execTokens_refines_decode ht rfl rfl
  rw [decodeRest_callStart] at huntaken hdescribes
  exact ⟨_, runCall_of_execTokens ht, rfl, huntaken, hwidth, hheight, hdescribes⟩

end Sys2Proof.Machine
end

section
/-! SUPPORT. What a call makes of a stream of bytes, in closed form (41_sequencer.md R101): the state after any number of bytes
that the raster takes, and then the token that ends the run. -/

namespace Sys2Proof.Machine

/-- The pixel of lane `i` of macroblock `k` of a stream: its luma and the chroma pair of its macroblock (R101). -/
def streamPixel (bytes : List Byte) (k i : Nat) : Pixel :=
  rec601 (bytes.getD (6 * k + i) 0) (bytes.getD (6 * k + 4) 0) (bytes.getD (6 * k + 5) 0)

/-- A further byte does not change the pixels of a complete macroblock. -/
theorem streamPixel_append {bytes : List Byte} {k i : Nat} (b : Byte) (hk : 6 * k + 6 ≤ bytes.length) (hi : i < 4) :
    streamPixel (bytes ++ [b]) k i = streamPixel bytes k i := by
  simp only [streamPixel]
  rw [List.getD_append _ _ _ _ (by omega), List.getD_append _ _ _ _ (by omega), List.getD_append _ _ _ _ (by omega)]

/-- Registers that hold macroblock `k` of a stream have its pixels in their lanes. -/
theorem lanePixel_eq_streamPixel {q : Macroblock} {bytes : List Byte} {k : Nat}
    (h : ∀ j : Fin 6, q.get j = bytes.getD (6 * k + j.val) 0) (i : Fin 4) : lanePixel q i = streamPixel bytes k i.val := by
  rw [lanePixel, Macroblock.luma_eq_get, h]
  exact congrArg₂ (rec601 _) (h 4) (h 5)

/-- The state of a run that has taken these bytes and no other token. -/
structure State.HasConsumed (s : State) (bytes : List Byte) : Prop where
  /-- The run goes on. -/
  run : s.st = .run
  /-- The position is their number (10_state.md R15). -/
  position : s.consumed = bytes.length
  /-- The registers below `PHASE` hold the bytes of the macroblock that is begun (R12). -/
  registers : ∀ j : Fin 6, j < s.phase → s.mb.get j = bytes.getD (6 * s.mbi.toNat + j.val) 0
  /-- The raster holds the pixels of the macroblocks that are complete. -/
  converted : ∀ k, k < s.mbi.toNat → ∀ (i : Fin 4) (c : Fin 3),
    s.raster.read (laneOffset k i c) = some ((streamPixel bytes k i.val).channel c)

/-- A call has consumed nothing when its run begins. -/
theorem callStart_hasConsumed (s : State) (w h : GeomWord) : (s.callStart w h).HasConsumed [] where
  run := rfl
  position := rfl
  registers j hj := absurd hj (Fin.not_lt_zero j)
  converted k hk := absurd hk (Nat.not_lt_zero k)

namespace State.HasConsumed

variable {s : State} {bytes : List Byte}

/-- The next byte goes to the register of its place in the stream. -/
theorem registers_set (h : s.HasConsumed bytes) (b : Byte) {j : Fin 6} (hj : j ≤ s.phase) :
    (s.mb.set s.phase b).get j = (bytes ++ [b]).getD (6 * s.mbi.toNat + j.val) 0 := by
  have hposition := h.position
  rw [State.consumed_eq] at hposition
  rw [Macroblock.get_set]
  split
  · subst j
    rw [List.getD_append_right _ _ _ _ (by omega), hposition, Nat.sub_self]
    rfl
  · have hlt : j < s.phase := lt_of_le_of_ne hj ‹_›
    rw [h.registers j hlt, List.getD_append _ _ _ _ (by omega)]

/-- The complete macroblocks stay what they are with a further byte. -/
theorem converted_append (h : s.HasConsumed bytes) (b : Byte) {k : Nat} (hk : k < s.mbi.toNat) (i : Fin 4) (c : Fin 3) :
    s.raster.read (laneOffset k i c) = some ((streamPixel (bytes ++ [b]) k i.val).channel c) := by
  have hposition := h.position
  rw [State.consumed_eq] at hposition
  rw [h.converted k hk, streamPixel_append b (by omega) i.isLt]

/-- With fewer bytes than the raster takes there is room. -/
theorem hasRoom (h : s.HasConsumed bytes) (hmore : bytes.length < 6 * (s.npix / 4)) : s.hasRoom = true := by
  have hposition := h.position
  rw [State.consumed_eq] at hposition
  rw [State.hasRoom_iff]
  omega

theorem store (h : s.HasConsumed bytes) (b : Byte) (hphase : s.phase ≠ 5) :
    ((s.writeMb s.phase b).setPos s.mbi (s.phase + 1)).HasConsumed (bytes ++ [b]) where
  run := h.run
  position := by
    rw [State.consumed_eq, State.setPos_phase, phase_succ_val hphase, List.length_append, ← h.position, State.consumed_eq]
    rfl
  registers j hj := by
    rw [State.setPos_phase, Fin.lt_def, phase_succ_val hphase] at hj
    exact h.registers_set b (Nat.le_of_lt_succ hj)
  converted _ hk := h.converted_append b hk

theorem complete (h : s.HasConsumed bytes) (b : Byte) (hphase : s.phase = 5) (hroom : s.hasRoom = true) :
    (((s.writeMb 5 b).setRaster (writeMacroblock s.mbi.toNat (s.mb.set 5 b) s.raster)).setPos (s.mbi + 1) 0).HasConsumed
      (bytes ++ [b]) where
  run := h.run
  position := by
    rw [State.consumed_eq, State.setPos_mbi, mbi_succ_toNat hroom, List.length_append, ← h.position, State.consumed_eq, hphase]
    rfl
  registers j hj := absurd hj (Fin.not_lt_zero j)
  converted k hk i c := by
    have hregisters (j : Fin 6) : (s.mb.set 5 b).get j = (bytes ++ [b]).getD (6 * s.mbi.toNat + j.val) 0 :=
      hphase ▸ h.registers_set b (hphase ▸ Fin.le_last j)
    rw [State.setPos_mbi, mbi_succ_toNat hroom] at hk
    rw [State.setPos_raster, State.setRaster_raster]
    by_cases hlast : k = s.mbi.toNat
    · rw [hlast, writeMacroblock_read_lane, lanePixel_eq_streamPixel hregisters]
    · have hbefore : laneOffset k i c < writePointer s.mbi.toNat := by
        rw [laneOffset_eq, writePointer]
        omega
      rw [writeMacroblock_read_outside _ _ _ _ (.inl hbefore)]
      exact h.converted_append b (by omega) i c

/-- A byte that the raster takes is consumed. -/
theorem exec_byte (h : s.HasConsumed bytes) (hmore : bytes.length < 6 * (s.npix / 4)) (b : Byte) :
    ∃ t, exec (.byte b) s = .next t ∧ t.npix = s.npix ∧ t.HasConsumed (bytes ++ [b]) := by
  have hroom := h.hasRoom hmore
  by_cases hphase : s.phase = 5
  · exact ⟨_, (Transition.complete b h.run hphase hroom).exec_eq, rfl, h.complete b hphase hroom⟩
  · exact ⟨_, (Transition.store b h.run hphase fun _ => hroom).exec_eq, rfl, h.store b hphase⟩

/-- Bytes that the raster takes are consumed. -/
theorem execTokens_bytes (h : s.HasConsumed bytes) (more : List Byte)
    (hfit : bytes.length + more.length ≤ 6 * (s.npix / 4)) :
    ∃ t, execTokens (more.map Token.byte) s = .next t ∧ t.npix = s.npix ∧ t.HasConsumed (bytes ++ more) := by
  induction more generalizing s bytes with
  | nil => exact ⟨s, rfl, rfl, by rwa [List.append_nil]⟩
  | cons b more ih =>
    rw [List.length_cons] at hfit
    obtain ⟨u, hu, hnpix, hconsumed⟩ := h.exec_byte (by omega) b
    obtain ⟨t, ht, hnpix', hconsumed'⟩ := ih hconsumed (by rw [List.length_append, hnpix, List.length_singleton]; omega)
    rw [List.append_assoc] at hconsumed'
    exact ⟨t, (execTokens_cons (k := .byte b) hu _).trans ht, hnpix'.trans hnpix, hconsumed'⟩

end State.HasConsumed

/-- A call has consumed any number of bytes that its raster takes. -/
theorem call_bytes (s : State) {w h : GeomWord} {bytes : List Byte} (hfit : bytes.length ≤ 6 * (npixOf w h / 4)) :
    ∃ t, execTokens (bytes.map Token.byte) (s.callStart w h) = .next t ∧ t.npix = npixOf w h ∧ t.HasConsumed bytes :=
  (callStart_hasConsumed s w h).execTokens_bytes bytes ((Nat.zero_add _).trans_le hfit)

theorem execTokens_append {ks : List Token} {s t : State} (h : execTokens ks s = .next t) (ls : List Token) :
    execTokens (ks ++ ls) s = execTokens ls t := by
  induction ks generalizing s with
  | nil => cases h; rfl
  | cons k ks ih =>
    obtain ⟨u, hk, hks⟩ := execTokens_cons_next h
    rw [List.cons_append, execTokens_cons hk, ih hks]

/-! ### The valid stream -/

/-- A valid stream fills the raster, and `END` closes it. -/
theorem call_of_valid_stream (s : State) {w h : GeomWord} {bytes : List Byte} (hlen : 2 * bytes.length = 3 * npixOf w h)
    (h4 : npixOf w h % 4 = 0) :
    ∃ t, execTokens (bytes.map Token.byte ++ [.endTok]) (s.callStart w h) = .next t ∧ t.st = .done ∧
      t.cap = 3 * npixOf w h ∧
      ∀ (p : Nat) (c : Fin 3), p < npixOf w h →
        t.raster.read (3 * p + c.val) = some ((streamPixel bytes (p / 4) (p % 4)).channel c) := by
  obtain ⟨u, hu, hnpix, hconsumed⟩ := call_bytes s (w := w) (h := h) (bytes := bytes) (by omega)
  have hposition := hconsumed.position
  rw [State.consumed_eq] at hposition
  have hzero : u.phase = 0 := Fin.val_eq_zero_iff.mp (by omega)
  rw [hzero, Fin.val_zero] at hposition
  have hfull : 4 * u.mbi.toNat = u.npix := by omega
  have hend := (Transition.finish hconsumed.run hzero hfull).exec_eq
  refine ⟨u.setSt .done, (execTokens_append hu _).trans (execTokens_cons (k := .endTok) hend []), rfl, ?_, fun p c hp => ?_⟩
  · rw [State.cap_eq, State.setSt_npix, hnpix]
  · have hread := hconsumed.converted (p / 4) (by omega) ⟨p % 4, by omega⟩ c
    rw [laneOffset_eq, show 12 * (p / 4) + 3 * (p % 4) + c.val = 3 * p + c.val by omega] at hread
    exact hread

/-- Settles O55: what the raster holds in `DONE` is what `RD` hands back. -/
theorem validStreamIsReadBackConverted : Obligations.ValidStreamIsReadBackConverted := by
  intro s w h bytes hlen h4
  obtain ⟨t, ht, hdone, hcap, hread⟩ := call_of_valid_stream s hlen h4
  refine ⟨_, runCall_of_execTokens ht, hdone, hcap, fun p c hp => ?_⟩
  have hbelow : 3 * p + c.val < t.cap := by
    rw [hcap, npixOf]
    omega
  exact (Transition.read (s := t.setOffers []) _ _ hdone hbelow (hread p c hp)).exec_eq

/-! ### Streams of any other length -/

/-- A token that raises an error decides what the call ends in, whatever follows. -/
theorem execTokens_of_raise {k : Token} {s : State} {e : ErrKind} (h : exec k.toInstr s = .next (s.raise e))
    (ks : List Token) : ∃ t, execTokens (k :: ks) s = .next t ∧ t.st = .err ∧ t.err = e := by
  rw [execTokens_cons h, execTokens_outside_run ks (by simp)]
  exact ⟨_, rfl, rfl, rfl⟩

/-- The first byte that the raster does not take is an error, whatever follows. -/
theorem call_of_long_stream (s : State) {w h : GeomWord} {bytes : List Byte} (hlong : 6 * (npixOf w h / 4) < bytes.length)
    (rest : List Token) :
    ∃ t, execTokens (bytes.map Token.byte ++ rest) (s.callStart w h) = .next t ∧ t.st = .err ∧ t.err = .truncatedInput := by
  obtain ⟨taken, b, excess, rfl, htaken⟩ : ∃ taken b excess, bytes = taken ++ b :: excess ∧
      taken.length = 6 * (npixOf w h / 4) :=
    ⟨_, _, _, (List.take_append_drop _ _).symm.trans (congrArg _ (List.drop_eq_getElem_cons hlong)), List.length_take_of_le hlong.le⟩
  obtain ⟨u, hu, hnpix, hconsumed⟩ := call_bytes s htaken.le
  have hposition := hconsumed.position
  rw [State.consumed_eq, htaken] at hposition
  have hzero : u.phase = 0 := Fin.val_eq_zero_iff.mp (by omega)
  have hfull : u.hasRoom = false := by
    rw [State.hasRoom_false_iff]
    omega
  have hexcess := (Transition.excess b hconsumed.run hzero hfull).exec_eq
  rw [List.map_append, List.append_assoc, execTokens_append hu, List.map_cons, List.cons_append]
  exact execTokens_of_raise (k := .byte b) hexcess _

/-- An `END` after a stream of another length than the valid one is an error, whatever follows. -/
theorem call_of_invalid_stream (s : State) {w h : GeomWord} {bytes : List Byte}
    (hinvalid : ¬(2 * bytes.length = 3 * npixOf w h ∧ npixOf w h % 4 = 0)) (rest : List Token) :
    ∃ t, execTokens (bytes.map Token.byte ++ .endTok :: rest) (s.callStart w h) = .next t ∧ t.st = .err ∧
      t.err = .truncatedInput := by
  by_cases hfit : bytes.length ≤ 6 * (npixOf w h / 4)
  · obtain ⟨u, hu, hnpix, hconsumed⟩ := call_bytes s hfit
    have hposition := hconsumed.position
    rw [State.consumed_eq] at hposition
    have hshort : u.phase ≠ 0 ∨ 4 * u.mbi.toNat ≠ u.npix := by
      by_contra hfull
      obtain ⟨hzero, hfull⟩ : u.phase = 0 ∧ 4 * u.mbi.toNat = u.npix := by simpa using hfull
      rw [hzero, Fin.val_zero] at hposition
      omega
    rw [execTokens_append hu]
    exact execTokens_of_raise (k := .endTok) (Transition.truncate hconsumed.run hshort).exec_eq _
  · exact call_of_long_stream s (Nat.lt_of_not_le hfit) _

/-! ### `Decode`, read off the machine that it agrees with -/

theorem Decoded.Describes.eq_ok {d : Decoded} {t : State} (h : d.Describes t) (hdone : t.st = .done) :
    d = .ok (rasterBytes t.raster t.cap) := by
  cases d with
  | ok raster => obtain ⟨-, -, rfl⟩ := h; rfl
  | err | unfinished =>
    obtain ⟨hst, -⟩ := h
    cases hst.symm.trans hdone

theorem Decoded.Describes.eq_err {d : Decoded} {t : State} (h : d.Describes t) (herr : t.st = .err) : d = .err t.err := by
  cases d with
  | err e => obtain ⟨-, rfl⟩ := h; rfl
  | ok | unfinished =>
    obtain ⟨hst, -⟩ := h
    cases hst.symm.trans herr

/-- The result of `Decode` describes the state in which the tokens of a call end. -/
theorem decodeStream_describes {s t : State} {w h : GeomWord} {toks : List Token}
    (ht : execTokens toks (s.callStart w h) = .next t) : (decodeStream toks w h).1.Describes t := by
  obtain ⟨-, hdescribes⟩ := execTokens_refines_decode ht rfl rfl
  rwa [decodeRest_callStart] at hdescribes

/-- Settles O54: the machine's raster, or its error, is that of `Decode`. -/
theorem decodeInClosedForm : Obligations.DecodeInClosedForm := by
  intro bytes w h npix result
  refine ⟨fun ⟨hlen, h4⟩ => ?_, fun hinvalid => ?_⟩
  · obtain ⟨t, ht, hdone, hcap, hread⟩ := call_of_valid_stream State.reset (w := w) (h := h) hlen h4
    refine ⟨_, (decodeStream_describes ht).eq_ok hdone, (rasterBytes_length _ _).trans hcap, fun p c hp => ?_⟩
    have hbelow : 3 * p + c.val < t.cap := by
      rw [hcap, npixOf]
      omega
    rw [rasterBytes_getElem? _ hbelow, hread p c hp]
    rfl
  · obtain ⟨t, ht, herr, hkind⟩ := call_of_invalid_stream State.reset hinvalid []
    rw [← hkind]
    exact (decodeStream_describes ht).eq_err herr

end Sys2Proof.Machine
end

section
/-! SUPPORT. The two errors of the machine (60_exceptions.md): which transitions raise one, and that host events raise nothing
else; then which error a whole call reports. -/

namespace Sys2Proof.Machine

/-- One of the cases T1, T2, T3 (60_exceptions.md R121). -/
def TruncationCase (i : Instr) (s : State) : Prop :=
  (i = .endTok ∧ s.phase ≠ 0) ∨
  (i = .endTok ∧ s.phase = 0 ∧ 4 * s.mbi.toNat ≠ s.npix) ∨
  ((∃ b, i = .byte b) ∧ s.phase = 0 ∧ s.npix < 4 * (s.mbi.toNat + 1))

/-- The guard of `truncate` is T1 or T2. -/
theorem truncationCase_endTok {s : State} (h : s.phase ≠ 0 ∨ 4 * s.mbi.toNat ≠ s.npix) : TruncationCase .endTok s := by
  by_cases hphase : s.phase = 0
  · exact .inr (.inl ⟨rfl, hphase, h.resolve_left (not_not_intro hphase)⟩)
  · exact .inl ⟨rfl, hphase⟩

/-- In `RUN` the cases T1, T2, T3 are the guards of `truncate` and `excess`. -/
theorem TruncationCase.transition {i : Instr} {s : State} (h : TruncationCase i s) (hrun : s.st = .run) :
    Transition i s (s.raise .truncatedInput) := by
  rcases h with ⟨rfl, hphase⟩ | ⟨rfl, -, hshort⟩ | ⟨⟨b, rfl⟩, hphase, hfull⟩
  · exact .truncate hrun (.inl hphase)
  · exact .truncate hrun (.inr hshort)
  · exact .excess b hrun hphase ((State.hasRoom_false_iff s).mpr hfull)

/-- An operation that leads to `ERR` raises the error of its case. -/
theorem Transition.raises {i : Instr} {s t : State} (h : Transition i s t) (hs : s.st ≠ .err) (ht : t.st = .err) :
    s.st = .run ∧
      ((TruncationCase i s ∧ t = s.raise .truncatedInput) ∨ (i = .fail ∧ t = s.raise .unreadableSource)) := by
  cases h with
  | excess b hrun hphase hroom =>
    exact ⟨hrun, .inl ⟨.inr (.inr ⟨⟨b, rfl⟩, hphase, (State.hasRoom_false_iff s).mp hroom⟩), rfl⟩⟩
  | truncate hrun hshort => exact ⟨hrun, .inl ⟨truncationCase_endTok hshort, rfl⟩⟩
  | fail hrun => exact ⟨hrun, .inr ⟨rfl, rfl⟩⟩
  | reset | startRun | finish => cases ht
  | _ => exact absurd ht hs

/-- The operation answers one next state only. -/
theorem Transition.eq_of_exec {i : Instr} {s t u : State} (h : Transition i s u) (hx : exec i s = .next t) : t = u := by
  cases hx.symm.trans h.exec_eq
  rfl

/-- Settles O39: the error names its case, and each case has its one transition. -/
theorem errorsAreRaisedExactlyInTheirCases : Obligations.ErrorsAreRaisedExactlyInTheirCases := by
  intro i s t hs hexec
  refine ⟨⟨fun ⟨herr, hkind⟩ => ?_, fun ⟨hrun, hcase⟩ => ?_⟩, ⟨fun ⟨herr, hkind⟩ => ?_, fun ⟨hrun, hfail⟩ => ?_⟩, fun herr => ?_⟩
  · obtain ⟨hrun, ⟨hcase, -⟩ | ⟨-, rfl⟩⟩ := (transition_of_exec hexec).raises hs herr
    · exact ⟨hrun, hcase⟩
    · cases hkind
  · rw [(TruncationCase.transition hcase hrun).eq_of_exec hexec]
    exact ⟨rfl, rfl⟩
  · obtain ⟨hrun, ⟨-, rfl⟩ | ⟨hfail, -⟩⟩ := (transition_of_exec hexec).raises hs herr
    · cases hkind
    · exact ⟨hrun, hfail⟩
  · subst hfail
    rw [(Transition.fail hrun).eq_of_exec hexec]
    exact ⟨rfl, rfl⟩
  · obtain ⟨-, ⟨-, rfl⟩ | ⟨-, rfl⟩⟩ := (transition_of_exec hexec).raises hs herr <;> simp

/-- Settles O40: both errors are `raise`. -/
theorem raisingAnErrorWritesOnlyStatus : Obligations.RaisingAnErrorWritesOnlyStatus := by
  intro i s t hs hexec herr
  obtain ⟨-, ⟨-, rfl⟩ | ⟨-, rfl⟩⟩ := (transition_of_exec hexec).raises hs herr <;> exact ⟨rfl, fun _ => rfl⟩

/-- Under the invariant the host's operations answer a next state, a read that is not enabled apart (60_exceptions.md R123). -/
theorem MachineInvariant.execEvent_next_or_refused {s : State} (hs : MachineInvariant s) {i : Instr} {f : Frame}
    (hevent : decodeEvent f = .ok i) : (∃ t, exec i s = .next t) ∨ exec i s = .refused .readNotEnabled := by
  obtain ⟨hmb4, hrec601⟩ := event_not_internal hevent
  cases i with
  | reset => exact .inl ⟨_, (Transition.reset s).exec_eq⟩
  | start w h =>
    by_cases hidle : s.st = .idle
    · exact .inl ⟨_, (Transition.startRun w h hidle).exec_eq⟩
    · exact .inl ⟨_, (Transition.ignoreStart w h hidle).exec_eq⟩
  | byte b => exact .inl (hs.execToken_next (.byte b))
  | endTok => exact .inl (hs.execToken_next .endTok)
  | fail => exact .inl (hs.execToken_next .fail)
  | mb4 y0 y1 y2 y3 cb cr => exact absurd rfl (hmb4 y0 y1 y2 y3 cb cr)
  | rec601 y cb cr => exact absurd rfl (hrec601 y cb cr)
  | rd a =>
    by_cases henabled : s.st = .done ∧ a < s.cap
    · obtain ⟨hdone, ha⟩ := henabled
      obtain ⟨v, -, hread⟩ := everyByteOfADoneRasterCanBeRead a s hs hdone ha
      exact .inl ⟨_, hread⟩
    · exact .inr (exec_rd_refused henabled)

/-- Settles O38: the step is what `exec` answers, and a refused read goes on as well. -/
theorem everyHostEventTakesAStep : Obligations.EveryHostEventTakesAStep := by
  intro s f fs i hs hoffers hport hdecode
  have hevent : decodeEvent f = .ok i := decodeEvent_ok_iff.mpr ⟨hport, hdecode⟩
  have htaken : MachineInvariant (s.setOffers fs) := hs.of_sameBlock rfl
  rcases htaken.execEvent_next_or_refused hevent with ⟨t, hnext⟩ | hrefused
  · exact ⟨t, step_of_exec_next hoffers hevent hnext⟩
  · exact ⟨_, step_of_refused_read hoffers hevent hrefused⟩

/-! ### The error of a call (60_exceptions.md R127) -/

/-- A `FAIL` after bytes that the raster takes is an error, whatever follows. -/
theorem call_of_failed_stream (s : State) {w h : GeomWord} {bytes : List Byte} (hfit : bytes.length ≤ 6 * (npixOf w h / 4))
    (rest : List Token) :
    ∃ t, execTokens (bytes.map Token.byte ++ .fail :: rest) (s.callStart w h) = .next t ∧ t.st = .err ∧
      t.err = .unreadableSource := by
  obtain ⟨u, hu, -, hconsumed⟩ := call_bytes s hfit
  rw [execTokens_append hu]
  exact execTokens_of_raise (k := .fail) (Transition.fail hconsumed.run).exec_eq _

/-- Tokens that follow an error leave it as it is (R131). -/
theorem execTokens_append_of_err {ks : List Token} {s t : State} (h : execTokens ks s = .next t) (herr : t.st = .err)
    (ls : List Token) : ∃ u, execTokens (ks ++ ls) s = .next u ∧ u.st = .err ∧ u.err = t.err := by
  rw [execTokens_append h, execTokens_outside_run ls (by simp [herr])]
  exact ⟨_, rfl, herr, rfl⟩

/-- A call reports the error in which its tokens end. -/
theorem runCall_err {s : State} {w h : GeomWord} {toks : List Token} {e : ErrKind}
    (hend : ∃ t, execTokens toks (s.callStart w h) = .next t ∧ t.st = .err ∧ t.err = e) :
    ∃ t, runCall s w h toks = .next t ∧ t.st = .err ∧ t.err = e := by
  obtain ⟨t, ht, herr, hkind⟩ := hend
  exact ⟨_, runCall_of_execTokens ht, herr, hkind⟩

/-- Settles O57: the first token that raises an error ends the run, and every later one is left. -/
theorem theEarliestErrorWins : Obligations.TheEarliestErrorWins := by
  refine fun s w h bytes rest => ⟨fun hfit => runCall_err (call_of_failed_stream s hfit rest),
    fun hlong => runCall_err (call_of_long_stream s hlong rest),
    fun hinvalid => runCall_err (call_of_invalid_stream s hinvalid rest), fun toks t hcall herr => ?_⟩
  obtain ⟨u, hu, -⟩ := (callStart_invariant s w h).execTokens_next toks
  cases (runCall_of_execTokens hu).symm.trans hcall
  exact runCall_err (execTokens_append_of_err hu herr rest)

end Sys2Proof.Machine
end

section
/-! SUPPORT. The end of a well-formed stream (70_reset_and_hazards.md R146, R152): its terminal token, if no byte before it,
ends the run. -/

namespace Sys2Proof.Machine

/-- A call whose bytes are followed by an `END` ends, in `DONE` when the stream is valid and in `ERR` otherwise. -/
theorem call_ended_of_endTok (s : State) (w h : GeomWord) (bytes : List Byte) :
    ∃ t, runCall s w h (bytes.map Token.byte ++ [.endTok]) = .next t ∧ t.ended := by
  by_cases hvalid : 2 * bytes.length = 3 * npixOf w h ∧ npixOf w h % 4 = 0
  · obtain ⟨hlen, h4⟩ := hvalid
    obtain ⟨t, ht, hdone, -⟩ := validStreamIsReadBackConverted s w h bytes hlen h4
    exact ⟨t, ht, .inl hdone⟩
  · obtain ⟨-, -, hinvalid, -⟩ := theEarliestErrorWins s w h bytes []
    obtain ⟨t, ht, herr, -⟩ := hinvalid hvalid
    exact ⟨t, ht, .inr herr⟩

/-- A call whose bytes are followed by a `FAIL` ends in `ERR`: if no excess byte raises an error, the `FAIL` does. -/
theorem call_err_of_fail (s : State) (w h : GeomWord) (bytes : List Byte) :
    ∃ t, runCall s w h (bytes.map Token.byte ++ [.fail]) = .next t ∧ t.st = .err := by
  obtain ⟨hfails, -⟩ := theEarliestErrorWins s w h bytes []
  obtain ⟨-, hexceeds, -⟩ := theEarliestErrorWins s w h bytes [.fail]
  rcases Nat.lt_or_ge (6 * (npixOf w h / 4)) bytes.length with hlong | hfit
  · obtain ⟨t, ht, herr, -⟩ := hexceeds hlong
    exact ⟨t, ht, herr⟩
  · obtain ⟨t, ht, herr, -⟩ := hfails hfit
    exact ⟨t, ht, herr⟩

/-- Settles O58: an `END` ends the run in `DONE` or `ERR`, a `FAIL` in `ERR` only. -/
theorem wellFormedStreamsEndTheRun : Obligations.WellFormedStreamsEndTheRun := by
  rintro s w h _ ⟨bytes, rfl | rfl⟩
  · obtain ⟨t, ht, hended⟩ := call_ended_of_endTok s w h bytes
    exact ⟨t, ht, hended, fun _ => List.getLast?_concat⟩
  · obtain ⟨t, ht, herr⟩ := call_err_of_fail s w h bytes
    exact ⟨t, ht, .inr herr, fun hdone => by simp [herr] at hdone⟩

end Sys2Proof.Machine
end
